-- ==== Sys2Proof/Word.lean ====
section
/-! DEFINITION. The words of the block (00_scope.md R19, R21): bytes, 16-bit checksums, 32-bit offsets. -/

namespace Sys2Proof

/-- `u8`: one byte of the Medium, of a line or of a payload. -/
abbrev Byte := BitVec 8

/-- `u16`: a checksum value or the running value `CRC_ACC`. -/
abbrev Half := BitVec 16

/-- `u32`: a byte offset of the Medium (R19). -/
abbrev Offset := BitVec 32

end Sys2Proof
end

