-- ==== Sys2Proof/Config.lean ====
section
/-! DEFINITION. What is fixed for the machine: the literals of 00_scope.md section 3, the open parameters an
implementation decides, and the free values. A free value is an `opaque` constant with no body: nothing can be proved of
which value it is. -/

namespace Sys2Proof

/-- What the environment does at one Medium Channel transaction: the channel's success or failure (20_memory.md R44,
R45), or a reset that strikes before the transaction is issued or while it is outstanding (70_reset_and_hazards.md
R171). -/
inductive Answer where
  /-- the transaction succeeds -/
  | ok
  /-- the channel reports failure after its own retries (R46) -/
  | fail
  /-- RESET strikes before this transaction is issued -/
  | resetBefore
  /-- RESET strikes while this transaction is outstanding -/
  | resetDuring
  deriving DecidableEq, Repr, Inhabited

/-- `CRC_INDEX_LIMIT`: open, 61 or 62 and nothing else (00_scope.md R13; 92_eei_decisions.md D3). -/
inductive CrcWindow where
  | limit61
  | limit62
  deriving DecidableEq, Repr, Inhabited

/-- `READ_END_REPORT`: open (43_command_fsm.md R134; 92_eei_decisions.md D19). -/
inductive ReadEndReport where
  | always
  | onInvalidSlot
  | onlyIfNone
  deriving DecidableEq, Repr, Inhabited

namespace Config

/-- `CAPACITY`, bytes of the Medium (R9). -/
abbrev capacity : Nat := 2048
/-- `SLOT_SIZE`, bytes of a slot (R10). -/
abbrev slotSize : Nat := 64
/-- `NSLOTS` (R11). -/
abbrev nslots : Nat := 32
/-- `LAST_OFFSET`, the offset of slot 31 (R11). -/
abbrev lastOffset : Nat := 1984
/-- `PAYLOAD_MAX`, the formula `SLOT_SIZE - 1 - 2 - 1` (R12; 90_conflicts.md C3). -/
abbrev payloadMax : Nat := 60
/-- `TERMINATOR` (R16). -/
abbrev terminator : Byte := 0x00
/-- `ERASE_BYTE` (R16). -/
abbrev eraseByte : Byte := 0x00
/-- The line terminator, 0x0A (30_encoding.md R66). PRESUMED in the spec's own words: G3 of
93_implementation_defined.md. -/
abbrev newline : Byte := 0x0A

/-- `BOOT_PAYLOAD`, the four characters `Boot` without a full stop (R17; 90_conflicts.md C8). -/
abbrev bootPayload : List Byte := [0x42, 0x6F, 0x6F, 0x74]
/-- The command word `erase` (30_encoding.md R67). -/
abbrev eraseWord : List Byte := [0x65, 0x72, 0x61, 0x73, 0x65]
/-- The command word `write` (R67). -/
abbrev writeWord : List Byte := [0x77, 0x72, 0x69, 0x74, 0x65]
/-- The command word `read` (R67). -/
abbrev readWord : List Byte := [0x72, 0x65, 0x61, 0x64]

/-- A byte string that meets 41_slot_codec.md R93, with the proof that it does. -/
structure LegalPayload where
  bytes : List Byte
  legal : 1 ≤ bytes.length ∧ bytes.length ≤ payloadMax ∧ terminator ∉ bytes
  deriving DecidableEq, Repr

/-- The open parameters a step uses. A model takes them as arguments (93_implementation_defined.md U16): they stand in
State, no step changes them, and a claim over all states holds for every choice of them. -/
structure Params where
  /-- `CRC_INDEX_LIMIT` -/
  window : CrcWindow
  /-- `PROBE_PAYLOAD` -/
  probe : LegalPayload
  /-- `READ_END_REPORT` -/
  readEnd : ReadEndReport
  deriving DecidableEq, Repr

/-- The value of `CRC_INDEX_LIMIT` in bytes. -/
def Params.limit (p : Params) : Nat :=
  match p.window with
  | .limit61 => 61
  | .limit62 => 62

/-- FREE: the implementation's `CRC_INDEX_LIMIT`. -/
opaque window : CrcWindow
/-- FREE: the implementation's `READ_END_REPORT`. -/
opaque readEnd : ReadEndReport
/-- FREE: the length of the implementation's `PROBE_PAYLOAD`, less one. -/
opaque probeLength : Fin 60
/-- FREE: the bytes of the implementation's `PROBE_PAYLOAD`, each less one (so that none is zero). -/
opaque probeByte : Nat → Fin 255

/-- The implementation's `PROBE_PAYLOAD`: every legal payload is this for some value of the two free constants. -/
def probeBytes : List Byte :=
  (List.range (probeLength.val + 1)).map fun i => BitVec.ofNat 8 ((probeByte i).val + 1)

theorem probeBytes_legal :
    1 ≤ probeBytes.length ∧ probeBytes.length ≤ payloadMax ∧ terminator ∉ probeBytes := by
  refine ⟨by simp [probeBytes], by simp [probeBytes], ?_⟩
  simp only [probeBytes, List.mem_map, not_exists, not_and]
  intro i _ h0
  have hb := (probeByte i).isLt
  have h1 : ((probeByte i).val + 1) % 256 = 0 := by simpa using congrArg BitVec.toNat h0
  omega

/-- The implementation's parameters, all three free. -/
def params : Params := ⟨window, ⟨probeBytes, probeBytes_legal⟩, readEnd⟩

/-- FREE: what the environment does at the transaction with this index (20_memory.md R44: "a free input of the
step"). -/
opaque channelAnswer : Nat → Answer
/-- FREE: the byte a failed or interrupted write with this index leaves at this address (R45). -/
opaque tornByte : Nat → Nat → Byte
/-- FREE: whether `pending` is `BootEntry` after the RESET with this index (10_state.md R39). -/
opaque resetPending : Nat → Bool
/-- FREE: `CRC_ACC` after the RESET with this index (R39). -/
opaque resetCrcAcc : Nat → Half
/-- FREE: byte `i` of `SLOTBUF` after the RESET with this index (R39). -/
opaque resetSlotByte : Nat → Nat → Byte
/-- FREE: `scan_off` after the RESET with this index (R39). -/
opaque resetScanOff : Nat → Offset

/-- FREE: first byte of `DIAG_TEXT(kind, operation, info)`, by the codes of R151 and R69 (30_encoding.md R77). -/
opaque diagHead : Nat → Nat → Nat → Byte
/-- FREE: the other bytes of `DIAG_TEXT(kind, operation, info)`. -/
opaque diagTail : Nat → Nat → Nat → List Byte

end Config

end Sys2Proof
end

