-- ==== Sys2Proof/Syntax.lean ====
section
/-! DEFINITION. The block's thirteen operations and commands (30_encoding.md R79), one constructor for each row of
spec/opcode_table.json. -/

namespace Sys2Proof

/-- The internal operations, in the order of their `OPSEL` codes (30_encoding.md R69). -/
inductive OpSel where
  | crc16
  | encode
  | decode
  | bootscan
  | append
  | eraseall
  | readall
  deriving DecidableEq, Repr

/-- An operation or command of the block. -/
inductive Instr where
  /-- `RESET`, the reset input (43_command_fsm.md R127) -/
  | reset
  /-- the line `erase` (R137) -/
  | erase
  /-- the line `write` (R138) -/
  | write
  /-- the line `read` (R139) -/
  | read
  /-- the line with no content (R140) -/
  | emptyLine
  /-- any other line, by its content (R141) -/
  | unrecognisedLine (line : List Byte)
  /-- `CRC16(B)` (40_checksum.md R80) -/
  | crc16 (bytes : List Byte)
  /-- `ENCODE(P)` (41_slot_codec.md R94) -/
  | encode (payload : List Byte)
  /-- `DECODE(S)` (41_slot_codec.md R97) -/
  | decode (image : List Byte)
  /-- `BOOTSCAN()` (42_log_engine.md R106) -/
  | bootscan
  /-- `APPEND(P)` (R109) -/
  | append (payload : List Byte)
  /-- `ERASEALL()` (R112) -/
  | eraseall
  /-- `READALL()` (R114) -/
  | readall
  deriving DecidableEq, Repr

end Sys2Proof
end

