-- ==== Sys2Proof/WellFormed.lean ====
section
/-! DEFINITION. Which instructions have an encoding: the operand conditions of 30_encoding.md R66 to R68 and
41_slot_codec.md R97. A payload of `encode` or `append` may be any bytes: an illegal one has a meaning of its own
(41_slot_codec.md R95). -/

namespace Sys2Proof

/-- The content of an unrecognised line: not empty, no terminator in it, none of the three command words (R68). -/
def Instr.lineWellFormed (line : List Byte) : Bool :=
  !line.isEmpty && !line.contains Config.newline &&
    line != Config.eraseWord && line != Config.writeWord && line != Config.readWord

/-- A slot image is exactly `SLOT_SIZE` bytes (R97). -/
def Instr.imageWellFormed (image : List Byte) : Bool :=
  image.length == Config.slotSize

/-- The operands are ones the encoding admits. -/
def Instr.wellFormed : Instr → Bool
  | .reset => true
  | .erase => true
  | .write => true
  | .read => true
  | .emptyLine => true
  | .unrecognisedLine line => Instr.lineWellFormed line
  | .crc16 _ => true
  | .encode _ => true
  | .decode image => Instr.imageWellFormed image
  | .bootscan => true
  | .append _ => true
  | .eraseall => true
  | .readall => true

end Sys2Proof
end

