-- ==== Sys2Proof/Decode.lean ====
section
/-! DEFINITION. From bits to instructions and back (30_encoding.md R66 to R69, R79). The block sees an instruction in one
of three forms: the reset input, a terminated line, or the call of an internal operation. -/

namespace Sys2Proof

/-- An instruction as the block sees it. -/
inductive Code where
  /-- the reset input; it has no bytes and cannot be typed (R78) -/
  | resetInput
  /-- the bytes of one line, the terminator included (R66) -/
  | line (bytes : List Byte)
  /-- DESIGN CHOICE (unsafe), notes/assumptions/16.md: the call of an internal operation, a byte that holds `OPSEL` in
  bits 3:0 and then the operand's bytes; the spec gives `OPSEL` and no layout for operands -/
  | call (bytes : List Byte)
  deriving DecidableEq, Repr

/-- Why a code is no instruction. -/
inductive DecodeError where
  /-- a line with no terminator in it (43_command_fsm.md R135: not yet a line) -/
  | unterminatedLine
  /-- bytes stand after the first terminator, so the code is more than one line -/
  | bytesAfterTerminator
  /-- a call with no `OPSEL` -/
  | emptyCall
  /-- an `OPSEL` code 0x0 or 0x8 to 0xF, "unassigned and never occur" (R69) -/
  | unassignedOpsel (code : Nat)
  /-- an operand of a length the operation does not take -/
  | operandLength (op : OpSel) (length : Nat)
  deriving DecidableEq, Repr

/-- The 4-bit code of an operation (R69). -/
def OpSel.code : OpSel → Nat
  | .crc16 => 1
  | .encode => 2
  | .decode => 3
  | .bootscan => 4
  | .append => 5
  | .eraseall => 6
  | .readall => 7

/-- The operation a 4-bit code selects (R69). -/
def OpSel.ofCode : Nat → Option OpSel
  | 1 => some .crc16
  | 2 => some .encode
  | 3 => some .decode
  | 4 => some .bootscan
  | 5 => some .append
  | 6 => some .eraseall
  | 7 => some .readall
  | _ => none

/-- The content before the first terminator, and the bytes after it (43_command_fsm.md R135). -/
def splitLine : List Byte → Option (List Byte × List Byte)
  | [] => none
  | b :: bs =>
    if b = Config.newline then some ([], bs)
    else
      match splitLine bs with
      | none => none
      | some (line, rest) => some (b :: line, rest)

/-- The command a line's content is, by exact match (R67, R68). -/
def decodeLine (line : List Byte) : Instr :=
  if line = [] then .emptyLine
  else if line = Config.eraseWord then .erase
  else if line = Config.writeWord then .write
  else if line = Config.readWord then .read
  else .unrecognisedLine line

/-- The instruction an operation with no operand is, when no operand stands in the call. -/
def decodeBare (op : OpSel) (i : Instr) (operand : List Byte) : Except DecodeError Instr :=
  if operand = [] then .ok i else .error (.operandLength op operand.length)

/-- The instruction an operation and its operand bytes are. -/
def decodeOperand (op : OpSel) (operand : List Byte) : Except DecodeError Instr :=
  match op with
  | .crc16 => .ok (.crc16 operand)
  | .encode => .ok (.encode operand)
  | .decode =>
    if operand.length = Config.slotSize then .ok (.decode operand)
    else .error (.operandLength .decode operand.length)
  | .bootscan => decodeBare .bootscan .bootscan operand
  | .append => .ok (.append operand)
  | .eraseall => decodeBare .eraseall .eraseall operand
  | .readall => decodeBare .readall .readall operand

/-- The instruction a call is: `OPSEL` is bits 3:0 of its first byte (R69). -/
def decodeCall : List Byte → Except DecodeError Instr
  | [] => .error .emptyCall
  | b :: operand =>
    match OpSel.ofCode (b.toNat % 16) with
    | none => .error (.unassignedOpsel (b.toNat % 16))
    | some op => decodeOperand op operand

/-- The instruction a code is, or the name of why it is none. -/
def decode : Code → Except DecodeError Instr
  | .resetInput => .ok .reset
  | .line bytes =>
    match splitLine bytes with
    | none => .error .unterminatedLine
    | some (line, []) => .ok (decodeLine line)
    | some (_, _ :: _) => .error .bytesAfterTerminator
  | .call bytes => decodeCall bytes

/-- The bytes of a call. -/
def callBytes (op : OpSel) (operand : List Byte) : List Byte :=
  BitVec.ofNat 8 op.code :: operand

/-- The code of an instruction. -/
def encode : Instr → Code
  | .reset => .resetInput
  | .erase => .line (Config.eraseWord ++ [Config.newline])
  | .write => .line (Config.writeWord ++ [Config.newline])
  | .read => .line (Config.readWord ++ [Config.newline])
  | .emptyLine => .line [Config.newline]
  | .unrecognisedLine line => .line (line ++ [Config.newline])
  | .crc16 bytes => .call (callBytes .crc16 bytes)
  | .encode payload => .call (callBytes .encode payload)
  | .decode image => .call (callBytes .decode image)
  | .bootscan => .call (callBytes .bootscan [])
  | .append payload => .call (callBytes .append payload)
  | .eraseall => .call (callBytes .eraseall [])
  | .readall => .call (callBytes .readall [])

/-- `n` bytes of a number, the byte of bits 7:0 first. -/
def wordBytes : Nat → Nat → List Byte
  | 0, _ => []
  | n + 1, w => BitVec.ofNat 8 w :: wordBytes n (w / 256)

/-- The bytes are exactly one terminated line. -/
def isLine (bytes : List Byte) : Bool :=
  match splitLine bytes with
  | some (_, []) => true
  | _ => false

/-- The operand bytes of zeros that a table word leaves out: DECODE takes a whole slot image. -/
def padCall : List Byte → List Byte
  | [] => []
  | b :: operand =>
    if OpSel.ofCode (b.toNat % 16) = some .decode then
      b :: (operand ++ List.replicate (Config.slotSize - operand.length) 0)
    else b :: operand

/-- The code a word of spec/opcode_table.json is. The first byte is bits 7:0; the table itself writes the rows of
command lines with the first byte at the top (0x65726173650A for `65 72 61 73 65 0A`), so a word that is one line in that
order, and not in the first, is that line. No word of two or more bytes is a line in both orders
(notes/assumptions/17.md). -/
def tableCode (nbits w : Nat) : Code :=
  let bytes := wordBytes ((nbits + 7) / 8) w
  if isLine bytes then .line bytes
  else if isLine bytes.reverse then .line bytes.reverse
  else .call (padCall bytes)

/-- The instruction this decoder reads from a word of spec/opcode_table.json. -/
def decodeTableWord (nbits w : Nat) : Option Instr :=
  match decode (tableCode nbits w) with
  | .ok i => some i
  | .error _ => none

end Sys2Proof
end

