-- ==== Sys2Proof/Machine/State.lean ====
section
/-! DEFINITION. The machine's state (10_state.md R23), its reset value (R39), and the ways a step can stop. -/

namespace Sys2Proof.Machine

/-- The states of the Command State Machine, in the source's order (10_state.md R26). -/
inductive Fsm where
  | bootScan
  | erase
  | write
  | read
  | userInput
  deriving DecidableEq, Repr

/-- The tag that says which payload the next `Write` state appends (R26). -/
inductive Pending where
  | bootEntry
  | probeEntry
  deriving DecidableEq, Repr

/-- The error kinds (60_exceptions.md R150). `decodeInvalid` is a verdict and is never reported (R152). -/
inductive ErrKind where
  | decodeInvalid
  | channelFailure
  | protocolViolation
  | payloadInvalid
  deriving DecidableEq, Repr

/-- One report of the stream `OUT` (10_state.md R30). -/
inductive Report where
  | bootMsg
  | entryMsg (payload : List Byte) (offset : Offset)
  | noEntriesMsg
  | invalidInputMsg
  | errorMsg (kind : ErrKind) (operation : OpSel) (info : Nat)
  | echo (b : Byte)
  deriving DecidableEq, Repr

/-- A recovery outcome of the boot scan (R27). -/
inductive Recovery where
  | empty (atOffset : Offset)
  | full
  deriving DecidableEq, Repr

/-- An entry as `READALL` yields it: the decoded payload and the slot's offset (41_slot_codec.md R102). -/
structure Entry where
  payload : List Byte
  offset : Offset
  deriving DecidableEq, Repr

/-- The value an operation returned to the sequencer (10_state.md R35; 42_log_engine.md R105). The model's own field
holds it, because an instruction's meaning answers a state. -/
inductive OpResult where
  /-- no operation has returned since reset -/
  | nothing
  /-- `CRC16` returned this value -/
  | checksum (c : Half)
  /-- `ENCODE` returned this frame -/
  | frame (bytes : List Byte)
  /-- `DECODE` returned `Some` payload or `None` -/
  | decoded (payload : Option (List Byte))
  /-- `BOOTSCAN` returned this outcome -/
  | recovery (r : Recovery)
  /-- `APPEND` or `ERASEALL` returned `Ok` -/
  | ok
  /-- `READALL`'s sequence ended, at an invalid slot or past the last slot -/
  | exhausted (atInvalidSlot : Bool)
  /-- the operation was abandoned by this error (60_exceptions.md R158) -/
  | raised (kind : ErrKind) (info : Nat)
  deriving DecidableEq, Repr

/-- One Medium Channel transaction that was issued, with its answer (20_memory.md R57). -/
inductive Txn where
  | read (addr : Offset) (length : Nat) (answer : Answer)
  | write (addr : Offset) (data : List Byte) (answer : Answer)
  deriving DecidableEq, Repr

/-- What moves next when it is not the block on its own (notes/assumptions/14.md). -/
inductive Event where
  /-- the host's byte arrives in `IN` (43_command_fsm.md R135) -/
  | byte (b : Byte)
  /-- the reset input (R127) -/
  | reset
  /-- the model's own bench runs one internal operation alone (notes/assumptions/16.md) -/
  | call (bytes : List Byte)
  /-- the block takes one step before the event after this one -/
  | run
  deriving DecidableEq, Repr

/-- The Medium: address and byte, addresses strictly rising, no entry equal to what an unlisted address reads as. -/
abbrev Memory := List Host.Cell

/-- The state of the block, of its Medium, and of the model's environment. -/
structure State where
  /-- `cursor`, the offset of the next slot to write (R24) -/
  cursor : Offset
  /-- `fsm` (R26) -/
  fsm : Fsm
  /-- `pending` (R26) -/
  pending : Pending
  /-- `IN` (R31) -/
  inp : List Byte
  /-- `OUT` (R30), oldest report first -/
  out : List Report
  /-- `MED` (R32) -/
  med : Memory
  /-- `CRC_ACC` (R28) -/
  crcAcc : Half
  /-- `SLOTBUF` (R29) -/
  slotbuf : List Byte
  /-- `scan_off` (R29) -/
  scanOff : Offset
  /-- the open parameters; no step changes them -/
  params : Config.Params
  /-- the model's own: host events not yet taken -/
  events : List Event
  /-- the model's own: channel answers already laid down -/
  answers : List Answer
  /-- the model's own: index of the next free value -/
  tick : Nat
  /-- the model's own: transactions issued, oldest first -/
  trace : List Txn
  /-- the model's own: what the last operation returned -/
  result : OpResult
  /-- the model's own: entries the last `READALL` delivered, in order -/
  yielded : List Entry
  deriving DecidableEq, Repr

/-- There is no fault: nothing in the spec stops the block (60_exceptions.md R158, "no operation crashes the hosting
process"), and no operation addresses a byte outside the Medium (20_memory.md R51). See notes/assumptions/26.md. -/
inductive Fault where
  deriving DecidableEq, Repr

/-- Why a step has no meaning. -/
inductive Refusal where
  /-- raised by `exec` for an instruction with no meaning yet; safe -/
  | notModelled (mnemonic : String)
  /-- raised by the step when the model's own event `call` holds bytes that are no operation (93_implementation_defined.md
  U15: unassigned `OPSEL` codes never occur); safe -/
  | undefinedCall (why : DecodeError)
  deriving DecidableEq, Repr

/-- The machine right after reset (10_state.md R39). `cursor`, `fsm`, `inp` and `out` are the spec's. DESIGN CHOICE
(unsafe): the values of `pending`, `crcAcc`, `slotbuf`, `scanOff` (notes/assumptions/10.md) and a Medium with nothing
listed (notes/assumptions/11.md). -/
def State.reset : State where
  cursor := 0
  fsm := .bootScan
  pending := .bootEntry
  inp := []
  out := []
  med := []
  crcAcc := 0
  slotbuf := List.replicate Config.slotSize 0
  scanOff := 0
  params := Config.params
  events := []
  answers := []
  tick := 0
  trace := []
  result := .nothing
  yielded := []

end Sys2Proof.Machine
end

