-- ==== Sys2Proof/Machine/Operands.lean ====
section
/-! DEFINITION. The operand forms: halves of a checksum and their byte order (00_scope.md R21, 20_memory.md R48), legal
payloads (41_slot_codec.md R93), the terminator search of a slot image (30_encoding.md R64), slot offsets
(20_memory.md R41), and the payload the `Write` state appends (43_command_fsm.md R132). -/

namespace Sys2Proof.Machine

/-- `hi8(c)`, bits 15:8 (00_scope.md R21). -/
def hi8 (c : Half) : Byte := c.extractLsb' 8 8

/-- `lo8(c)`, bits 7:0 (R21). -/
def lo8 (c : Half) : Byte := c.extractLsb' 0 8

/-- `BE16(c)`, high byte first (R21; 20_memory.md R48). -/
def be16 (c : Half) : List Byte := [hi8 c, lo8 c]

/-- A payload `ENCODE` accepts: 1 to `PAYLOAD_MAX` bytes, none of them zero (41_slot_codec.md R93). -/
def legalPayload (p : List Byte) : Bool :=
  decide (1 ≤ p.length) && decide (p.length ≤ Config.payloadMax) && !p.contains Config.terminator

/-- The least index that holds the terminator (R96 b). -/
def firstTerminator : List Byte → Option Nat
  | [] => none
  | b :: bs =>
    if b = Config.terminator then some 0
    else
      match firstTerminator bs with
      | none => none
      | some t => some (t + 1)

/-- The offset of slot `i` (20_memory.md R41). -/
def slotOffset (i : Nat) : Offset := BitVec.ofNat 32 (i * Config.slotSize)

/-- The slot offsets in the order every scan visits them: 0, `SLOT_SIZE`, ..., `LAST_OFFSET` (42_log_engine.md R106). -/
def slotOffsets : List Offset := (List.range Config.nslots).map slotOffset

/-- The payload of the pending append (43_command_fsm.md R132). -/
def pendingPayload (s : State) : List Byte :=
  match s.pending with
  | .bootEntry => Config.bootPayload
  | .probeEntry => s.params.probe.bytes

end Sys2Proof.Machine
end

