-- ==== Sys2Proof/Machine/Checksum.lean ====
section
/-! DEFINITION. The Checksum Engine (40_checksum.md). The shift constants are the spec's, which marks them as general
knowledge and not the source's (00_scope.md R15; notes/assumptions/2.md). -/

namespace Sys2Proof.Machine

/-- The mixed byte `x'`: high byte of the running value, exclusive-ORed with the input byte, then with itself shifted
right by 4 (R81). -/
def crcMix (c : Half) (b : Byte) : Byte :=
  let x := hi8 c ^^^ b
  x ^^^ (x >>> 4)

/-- `crc_step`: the old value shifted left by 8, exclusive-ORed with the three projections of the mixed byte (R81). -/
def crcStep (c : Half) (b : Byte) : Half :=
  let m : Half := (crcMix c b).setWidth 16
  (c <<< 8) ^^^ (m <<< 12) ^^^ (m <<< 5) ^^^ m

/-- The loop of R80, continued from an accumulator value (R85). -/
def crcFrom (c : Half) (bytes : List Byte) : Half := bytes.foldl crcStep c

/-- `CRC16(B)`, seeded with `CRC_SEED` = 0xFFFF (R80, 00_scope.md R14). -/
def crc16 (bytes : List Byte) : Half := crcFrom 0xFFFF bytes

end Sys2Proof.Machine
end

