-- ==== Sys2Proof/Machine/Flags.lean ====
section
/-! DEFINITION. The block has no flags or condition codes (10_state.md R35). What stands in their place are verdicts, values
consumed at once: the four validity tests of a slot (41_slot_codec.md R96, R97) and the capacity test of an append
(42_log_engine.md R110). -/

namespace Sys2Proof.Machine

/-- Tests (a), (b) and (s) of R97: the index of the terminator, when the first byte is non-zero, a terminator lies within
the search window and the two checksum bytes lie within the slot. -/
def frameSpan (limit : Nat) (image : List Byte) : Option Nat :=
  if image.headD Config.terminator = Config.terminator then none
  else
    match firstTerminator (image.take limit) with
    | none => none
    | some t => if t + 3 > Config.slotSize then none else some t

/-- Test (c) of R97: the checksum over payload, terminator and checksum bytes is `CRC_SENTINEL` = 0 (00_scope.md R14). -/
def sealed (image : List Byte) (t : Nat) : Bool := crc16 (image.take (t + 3)) == 0x0000

/-- The capacity test of `APPEND`: no slot is free (42_log_engine.md R110). -/
def logFull (cursor : Offset) : Bool := decide (BitVec.ofNat 32 Config.lastOffset < cursor)

end Sys2Proof.Machine
end

