-- ==== Sys2Proof/Machine/Ops.lean ====
section
/-! DEFINITION. The named operations every meaning is built from: the Medium's bytes (20_memory.md R40 to R42), the channel
transactions (R44, R45), reports (10_state.md R30), reset (R39) and the raising of an error (60_exceptions.md R158). -/

namespace Sys2Proof.Machine

/-! ### The Medium -/

/-- What an unlisted address reads as. DESIGN CHOICE (unsafe), notes/assumptions/11.md: the first contents of the Medium
are open (10_state.md R32). -/
def Memory.blank : Byte := 0x00

/-- One byte of the Medium. -/
def Memory.read : Memory → Nat → Byte
  | [], _ => Memory.blank
  | (k, v) :: rest, a => if k = a then v else Memory.read rest a

/-- An entry, left out when it equals what its address reads as unlisted. -/
def Memory.cell (a : Nat) (v : Byte) (rest : Memory) : Memory :=
  if v = Memory.blank then rest else (a, v) :: rest

/-- The Medium with one byte written. -/
def Memory.write : Memory → Nat → Byte → Memory
  | [], a, v => Memory.cell a v []
  | (k, w) :: rest, a, v =>
    if a < k then Memory.cell a v ((k, w) :: rest)
    else if a = k then Memory.cell a v rest
    else (k, w) :: Memory.write rest a v

/-- The Medium with consecutive bytes written, the first at `a`. -/
def Memory.writeBytes : Memory → Nat → List Byte → Memory
  | m, _, [] => m
  | m, a, v :: vs => Memory.writeBytes (Memory.write m a v) (a + 1) vs

/-- `n` consecutive bytes of the Medium, the first at `a`. -/
def Memory.bytes (m : Memory) (a n : Nat) : List Byte :=
  (List.range n).map fun k => Memory.read m (a + k)

/-- Addresses strictly above `lo`, strictly rising, inside the Medium, and no entry a blank one. -/
def Memory.wfFrom : Nat → Memory → Bool
  | _, [] => true
  | lo, (k, v) :: rest =>
    decide (lo ≤ k) && decide (k < Config.capacity) && decide (v ≠ Memory.blank) && Memory.wfFrom (k + 1) rest

/-- The canonical form of the Medium. -/
def Memory.wf (m : Memory) : Bool := Memory.wfFrom 0 m

/-! ### The Medium Channel -/

/-- How an operation, or a part of one, ended. -/
inductive Ended (α : Type) where
  /-- with its normal value -/
  | done (value : α)
  /-- by `raise kind info` (60_exceptions.md R158) -/
  | raised (kind : ErrKind) (info : Nat)
  /-- by a reset that struck (70_reset_and_hazards.md R171) -/
  | reset
  deriving DecidableEq, Repr

/-- What the environment does at the transaction after `j` others: the answer laid down for it, or a free one. -/
def answerAt (s : State) (j : Nat) : Answer :=
  match s.answers[j]? with
  | some a => a
  | none => Config.channelAnswer (s.tick + j)

/-- The next answer taken. -/
def State.asked (s : State) : State :=
  { s with answers := s.answers.tail, tick := s.tick + 1 }

/-- A transaction recorded in the model's own trace. -/
def State.record (t : Txn) (s : State) : State := { s with trace := s.trace ++ [t] }

/-- The bytes a failed or interrupted write leaves in its span: FREE (20_memory.md R45, 92_eei_decisions.md D23). -/
def tornBytes (tick a n : Nat) : List Byte :=
  (List.range n).map fun k => Config.tornByte tick (a + k)

/-- The Medium after a write that did not succeed: its span holds unspecified bytes (R45). -/
def State.torn (addr : Offset) (n : Nat) (s : State) : State :=
  { s with med := Memory.writeBytes s.med addr.toNat (tornBytes s.tick addr.toNat n) }

/-- The Medium after a write that succeeded (R45). -/
def State.stored (addr : Offset) (v : List Byte) (s : State) : State :=
  { s with med := Memory.writeBytes s.med addr.toNat v }

/-- `MemRead(addr, n)` (R44): the bytes as they stand, or `ChannelFailure` at `addr`. -/
def memRead (addr : Offset) (n : Nat) (s : State) : Ended (List Byte) × State :=
  match answerAt s 0 with
  | .ok => (.done (Memory.bytes s.med addr.toNat n), s.asked.record (.read addr n .ok))
  | .fail => (.raised .channelFailure addr.toNat, s.asked.record (.read addr n .fail))
  | .resetBefore => (.reset, s.asked)
  | .resetDuring => (.reset, s.asked.record (.read addr n .resetDuring))

/-- `MemWrite(addr, len(v), v)` (R45): the bytes stored, or `ChannelFailure` at `addr` with the span unspecified; a write
outstanding when reset strikes counts as failed (70_reset_and_hazards.md R171). -/
def memWrite (addr : Offset) (v : List Byte) (s : State) : Ended Unit × State :=
  match answerAt s 0 with
  | .ok => (.done (), (s.stored addr v).asked.record (.write addr v .ok))
  | .fail => (.raised .channelFailure addr.toNat, (s.torn addr v.length).asked.record (.write addr v .fail))
  | .resetBefore => (.reset, s.asked)
  | .resetDuring => (.reset, (s.torn addr v.length).asked.record (.write addr v .resetDuring))

/-! ### Reports, reset and errors -/

/-- `emit`: one report appended to `OUT` (00_scope.md R21). -/
def State.emit (r : Report) (s : State) : State := { s with out := s.out ++ [r] }

/-- RESET's state writes (10_state.md R39). `cursor`, `fsm`, `IN` and `OUT` get the spec's values. `pending`, `CRC_ACC`,
`SLOTBUF` and `scan_off` are unspecified after reset and get FREE values (notes/assumptions/9.md). The Medium, the
parameters and the model's environment stay. -/
def State.resetBlock (s : State) : State :=
  { s with
    cursor := 0
    fsm := .bootScan
    inp := []
    out := []
    pending := if Config.resetPending s.tick then .bootEntry else .probeEntry
    crcAcc := Config.resetCrcAcc s.tick
    slotbuf := (List.range Config.slotSize).map (Config.resetSlotByte s.tick)
    scanOff := Config.resetScanOff s.tick
    tick := s.tick + 1
    result := .nothing
    yielded := [] }

/-- TAKING AN ERROR (60_exceptions.md R158): one `ErrorMsg` is emitted and `fsm <- UserInput`. The effects so far stay, and
`cursor` is not written. Nothing is saved, so there is no return operation (R160). -/
def State.raise (op : OpSel) (kind : ErrKind) (info : Nat) (s : State) : State :=
  { s with out := s.out ++ [.errorMsg kind op info], fsm := .userInput, result := .raised kind info }

/-- The end of operation `op`: its value is returned to the sequencer, its error is taken, or the reset that discarded it is
applied. -/
def complete {α : Type} (op : OpSel) (returned : α → OpResult) : Ended α × State → State
  | (.done a, s) => { s with result := returned a }
  | (.raised kind info, s) => s.raise op kind info
  | (.reset, s) => s.resetBlock

end Sys2Proof.Machine
end

