-- ==== Sys2Proof/Machine/Commands.lean ====
section
/-! DEFINITION. The meanings of RESET and of the command lines (43_command_fsm.md R127, R137 to R141). Taking the line out
of `IN` and echoing it belongs to the step (R135, R136). -/

namespace Sys2Proof.Machine

/-- RESET (R127; 10_state.md R39). -/
def execReset (s : State) : Host.Outcome State Fault Refusal := .next s.resetBlock

/-- `erase` (R137). -/
def execErase (s : State) : Host.Outcome State Fault Refusal := .next { s with fsm := .erase }

/-- `write` (R138). -/
def execWrite (s : State) : Host.Outcome State Fault Refusal :=
  .next { s with pending := .probeEntry, fsm := .write }

/-- `read` (R139). -/
def execRead (s : State) : Host.Outcome State Fault Refusal := .next { s with fsm := .read }

/-- The empty line (R140). -/
def execEmptyLine (s : State) : Host.Outcome State Fault Refusal := .next { s with fsm := .userInput }

/-- An unrecognised line, whatever its content (R141). -/
def execUnrecognisedLine (_line : List Byte) (s : State) : Host.Outcome State Fault Refusal :=
  .next { s.emit .invalidInputMsg with fsm := .userInput }

end Sys2Proof.Machine
end

