-- ==== Sys2Proof/Machine/Codec.lean ====
section
/-! DEFINITION. The Slot Codec (41_slot_codec.md) and the meanings of CRC16, ENCODE and DECODE. -/

namespace Sys2Proof.Machine

/-- The frame of a payload: payload, terminator, checksum high byte first (30_encoding.md R60; 41_slot_codec.md R94). -/
def frameOf (p : List Byte) : List Byte :=
  p ++ [Config.terminator] ++ be16 (crc16 (p ++ [Config.terminator]))

/-- `ENCODE(P)` (R94, R95): the frame is built at the start of `SLOTBUF`, whose other bytes stay; an illegal payload raises
`PayloadInvalid` and writes nothing. -/
def encodeSlot (p : List Byte) (s : State) : Ended (List Byte) × State :=
  if legalPayload p then
    (.done (frameOf p),
      { s with
        slotbuf := frameOf p ++ s.slotbuf.drop (frameOf p).length
        crcAcc := crc16 (p ++ [Config.terminator]) })
  else (.raised .payloadInvalid p.length, s)

/-- The payload a slot image holds, or `None` (R97). -/
def slotPayload (limit : Nat) (image : List Byte) : Option (List Byte) :=
  match frameSpan limit image with
  | none => none
  | some t => if sealed image t then some (image.take t) else none

/-- `CRC_ACC` after a slot image is judged: the checksum of the span when test (c) is reached, else as it was. -/
def judgeCrc (limit : Nat) (image : List Byte) (acc : Half) : Half :=
  match frameSpan limit image with
  | none => acc
  | some t => crc16 (image.take (t + 3))

/-- `DECODE(S)` (R97): the verdict, and the state with the checksum accumulator it leaves. -/
def decodeSlot (image : List Byte) (s : State) : Option (List Byte) × State :=
  (slotPayload s.params.limit image, { s with crcAcc := judgeCrc s.params.limit image s.crcAcc })

/-- CRC16 (40_checksum.md R80). -/
def execCrc16 (bytes : List Byte) (s : State) : Host.Outcome State Fault Refusal :=
  .next { s with crcAcc := crc16 bytes, result := .checksum (crc16 bytes) }

/-- ENCODE (41_slot_codec.md R94, R95). -/
def execEncode (payload : List Byte) (s : State) : Host.Outcome State Fault Refusal :=
  .next (complete .encode .frame (encodeSlot payload s))

/-- DECODE (R97): never an error; the verdict `None` is `DecodeInvalid` recovered locally (60_exceptions.md R152). -/
def execDecode (image : List Byte) (s : State) : Host.Outcome State Fault Refusal :=
  .next { (decodeSlot image s).2 with result := .decoded (decodeSlot image s).1 }

end Sys2Proof.Machine
end

