-- ==== Sys2Proof/Machine/LogEngine.lean ====
section
/-! DEFINITION. The Log Engine (42_log_engine.md) and the meanings of BOOTSCAN, APPEND, ERASEALL and READALL. A scan is a
recursion over the list of slot offsets still to visit; the list is empty exactly after `LAST_OFFSET`. -/

namespace Sys2Proof.Machine

/-- `scan_off <- off`, then `SLOTBUF <- MemRead(scan_off, SLOT_SIZE)`, then `DECODE(SLOTBUF)` (R106, R114). A read that does
not succeed leaves `SLOTBUF` as it was. -/
def readSlot (off : Offset) (s : State) : Ended (Option (List Byte)) × State :=
  match memRead off Config.slotSize { s with scanOff := off } with
  | (.done image, t) =>
    (.done (decodeSlot image { t with slotbuf := image }).1, (decodeSlot image { t with slotbuf := image }).2)
  | (.raised kind info, t) => (.raised kind info, t)
  | (.reset, t) => (.reset, t)

/-- `BOOTSCAN` over the slots still to scan (R106). -/
def bootScanOver : List Offset → State → Ended Recovery × State
  | [], s => (.done .full, { s with cursor := BitVec.ofNat 32 Config.capacity })
  | off :: rest, s =>
    match readSlot off s with
    | (.done none, t) => (.done (.empty off), { t with cursor := off })
    | (.done (some _), t) => bootScanOver rest t
    | (.raised kind info, t) => (.raised kind info, t)
    | (.reset, t) => (.reset, t)

/-- `APPEND(P)` (R109): capacity test, `ENCODE`, one write at `cursor`, then the cursor advances by `SLOT_SIZE`. -/
def appendEntry (p : List Byte) (s : State) : Ended Unit × State :=
  if logFull s.cursor then (.raised .protocolViolation s.cursor.toNat, s)
  else
    match encodeSlot p s with
    | (.done frame, t) =>
      match memWrite t.cursor frame t with
      | (.done _, u) => (.done (), { u with cursor := u.cursor + BitVec.ofNat 32 Config.slotSize })
      | (.raised kind info, u) => (.raised kind info, u)
      | (.reset, u) => (.reset, u)
    | (.raised kind info, t) => (.raised kind info, t)
    | (.reset, t) => (.reset, t)

/-- `ERASEALL` over the slots still to erase: one zero byte each, and `cursor <- 0` only after the last (R112). -/
def eraseOver : List Offset → State → Ended Unit × State
  | [], s => (.done (), { s with cursor := 0 })
  | off :: rest, s =>
    match memWrite off [Config.eraseByte] { s with scanOff := off } with
    | (.done _, t) => eraseOver rest t
    | (.raised kind info, t) => (.raised kind info, t)
    | (.reset, t) => (.reset, t)

/-- `yield` (R114): the entry goes to the consumer before the next read. The block's one consumer is the `Read` state, which
emits `EntryMsg` (43_command_fsm.md R134); see notes/assumptions/29.md. -/
def deliver (p : List Byte) (off : Offset) (s : State) : State :=
  { s with
    yielded := s.yielded ++ [⟨p, off⟩]
    out := if s.fsm = .read then s.out ++ [.entryMsg p off] else s.out }

/-- `READALL` over the slots still to read; the value says whether the sequence ended at an invalid slot (R114). -/
def readOver : List Offset → State → Ended Bool × State
  | [], s => (.done false, s)
  | off :: rest, s =>
    match readSlot off s with
    | (.done none, t) => (.done true, t)
    | (.done (some p), t) => readOver rest (deliver p off t)
    | (.raised kind info, t) => (.raised kind info, t)
    | (.reset, t) => (.reset, t)

/-- BOOTSCAN (R106 to R108). -/
def execBootscan (s : State) : Host.Outcome State Fault Refusal :=
  .next (complete .bootscan .recovery (bootScanOver slotOffsets s))

/-- APPEND (R109 to R111). -/
def execAppend (payload : List Byte) (s : State) : Host.Outcome State Fault Refusal :=
  .next (complete .append (fun _ => .ok) (appendEntry payload s))

/-- ERASEALL (R112, R113). -/
def execEraseall (s : State) : Host.Outcome State Fault Refusal :=
  .next (complete .eraseall (fun _ => .ok) (eraseOver slotOffsets s))

/-- READALL (R114, R115). -/
def execReadall (s : State) : Host.Outcome State Fault Refusal :=
  .next (complete .readall .exhausted (readOver slotOffsets { s with yielded := [] }))

end Sys2Proof.Machine
end

