-- ==== Sys2Proof/Machine/Dispatch.lean ====
section
/-! DEFINITION. One arm per instruction. -/

namespace Sys2Proof.Machine

def exec (i : Instr) (s : State) : Host.Outcome State Fault Refusal :=
  match i with
  | .reset => Sys2Proof.Machine.execReset s
  | .erase => Sys2Proof.Machine.execErase s
  | .write => Sys2Proof.Machine.execWrite s
  | .read => Sys2Proof.Machine.execRead s
  | .emptyLine => Sys2Proof.Machine.execEmptyLine s
  | .unrecognisedLine line => Sys2Proof.Machine.execUnrecognisedLine line s
  | .crc16 bytes => Sys2Proof.Machine.execCrc16 bytes s
  | .encode payload => Sys2Proof.Machine.execEncode payload s
  | .decode image => Sys2Proof.Machine.execDecode image s
  | .bootscan => Sys2Proof.Machine.execBootscan s
  | .append payload => Sys2Proof.Machine.execAppend payload s
  | .eraseall => Sys2Proof.Machine.execEraseall s
  | .readall => Sys2Proof.Machine.execReadall s

end Sys2Proof.Machine
end

