-- ==== Sys2Proof/Machine/Sequencer.lean ====
section
/-! DEFINITION. The Command State Machine around the operations (43_command_fsm.md): which instruction a state runs, what the
sequencer does with the value an operation returns, taking a line, and the arrival of the host's events. -/

namespace Sys2Proof.Machine

/-- A function applied to the next state, where there is one. -/
def onNext (f : State → State) : Host.Outcome State Fault Refusal → Host.Outcome State Fault Refusal
  | .next s => .next (f s)
  | .fault r => .fault r
  | .refused r => .refused r

/-- The `BootScan` step once `BOOTSCAN` has returned (R128). After an error or a reset nothing is left to do (R129). -/
def afterBootScan (s : State) : State :=
  match s.result with
  | .recovery .full => { s with fsm := .erase }
  | .recovery (.empty _) => { s.emit .bootMsg with pending := .bootEntry, fsm := .write }
  | _ => s

/-- The `Erase` and `Write` steps once the operation has returned `Ok` (R130, R132). -/
def afterOk (s : State) : State :=
  match s.result with
  | .ok => { s with fsm := .userInput }
  | _ => s

/-- Whether the closing message of a read-back appears, by `READ_END_REPORT`, the number of entries and whether the sequence
ended at an invalid slot (R134). -/
def closingReport (r : ReadEndReport) (count : Nat) (atInvalidSlot : Bool) : Bool :=
  match r with
  | .always => true
  | .onInvalidSlot => atInvalidSlot
  | .onlyIfNone => count == 0

/-- The `Read` step once `READALL`'s sequence has ended (R134). -/
def afterRead (s : State) : State :=
  match s.result with
  | .exhausted atInvalidSlot =>
    if closingReport s.params.readEnd s.yielded.length atInvalidSlot then
      { s.emit .noEntriesMsg with fsm := .userInput }
    else { s with fsm := .userInput }
  | _ => s

/-- The line taken: its bytes and the terminator are echoed in order, and `IN` keeps what follows (R135, R136). -/
def State.tookLine (line rest : List Byte) (s : State) : State :=
  { s with inp := rest, out := s.out ++ (line ++ [Config.newline]).map .echo }

/-- The `UserInput` step: the first complete line of `IN` is taken and run; without one the block waits, which leaves every
element of the state as it is (R126, R135; notes/assumptions/15.md). -/
def userInputStep (s : State) : Host.Outcome State Fault Refusal :=
  match splitLine s.inp with
  | none => .next s
  | some (line, rest) => exec (decodeLine line) (s.tookLine line rest)

/-- One step of the block (R126). -/
def blockStep (s : State) : Host.Outcome State Fault Refusal :=
  match s.fsm with
  | .bootScan => onNext afterBootScan (exec .bootscan s)
  | .erase => onNext afterOk (exec .eraseall s)
  | .write => onNext afterOk (exec (.append (pendingPayload s)) s)
  | .read => onNext afterRead (exec .readall s)
  | .userInput => userInputStep s

/-- The model's own bench: one internal operation alone (notes/assumptions/16.md). -/
def benchStep (bytes : List Byte) (s : State) : Host.Outcome State Fault Refusal :=
  match decode (.call bytes) with
  | .ok i => exec i s
  | .error why => .refused (.undefinedCall why)

/-- One step of the whole: the next host event, or the block when none is waiting (notes/assumptions/14.md). -/
def wholeStep (s : State) : Host.Outcome State Fault Refusal :=
  match s.events with
  | [] => blockStep s
  | .run :: rest => blockStep { s with events := rest }
  | .byte b :: rest => .next { s with events := rest, inp := s.inp ++ [b] }
  | .reset :: rest => exec .reset { s with events := rest }
  | .call bytes :: rest => benchStep bytes { s with events := rest }

/-- The state with a code placed where the next step takes its instruction from. -/
def State.place (s : State) : Code → State
  | .resetInput => { s with events := [.reset] }
  | .line bytes => { s with events := [], fsm := .userInput, inp := bytes }
  | .call bytes => { s with events := [.call bytes] }

end Sys2Proof.Machine
end

