-- ==== Sys2Proof/Machine/Step.lean ====
section
/-! DEFINITION. The step of the machine, and the placing of a table word where the step takes its next instruction. -/

namespace Sys2Proof.Machine

/-- One step: a host event, or one step of the Command State Machine (43_command_fsm.md R126). -/
def step (s : State) : Host.Outcome State Fault Refusal := wholeStep s

/-- The word of spec/opcode_table.json placed so that the very next step runs it: a command line stands in `IN` with the
block in `UserInput`, an internal operation stands as the next bench call (notes/assumptions/17.md). -/
def State.withFetchWord (s : State) (nbits w : Nat) : State := s.place (tableCode nbits w)

end Sys2Proof.Machine
end

