-- ==== Sys2Proof/Machine/Reports.lean ====
section
/-! DEFINITION. The codes used in traces and reports (30_encoding.md R70; 60_exceptions.md R151) and the text bodies of
reports (30_encoding.md R71 to R77). No step reads them; what separates two reports is unspecified (R71). -/

namespace Sys2Proof.Machine

/-- The code of a state (R70). -/
def Fsm.code : Fsm → Nat
  | .bootScan => 0
  | .erase => 1
  | .write => 2
  | .read => 3
  | .userInput => 4

/-- The code of a pending tag (R70). -/
def Pending.code : Pending → Nat
  | .bootEntry => 0
  | .probeEntry => 1

/-- The code of a recovery outcome's tag (R70). -/
def Recovery.code : Recovery → Nat
  | .empty _ => 0
  | .full => 1

/-- The code of an error kind; 0 is no error (60_exceptions.md R151). -/
def ErrKind.code : ErrKind → Nat
  | .decodeInvalid => 1
  | .channelFailure => 2
  | .protocolViolation => 3
  | .payloadInvalid => 4

/-- ASCII bytes of characters. -/
def ascii (cs : List Char) : List Byte := cs.map fun c => BitVec.ofNat 8 c.toNat

/-- One digit `0-9A-F` (R74). -/
def hexDigit (n : Nat) : Byte := if n < 10 then BitVec.ofNat 8 (48 + n) else BitVec.ofNat 8 (55 + n)

/-- At most `fuel` hexadecimal digits before `acc`, no leading zeros. -/
def hexDigits : Nat → Nat → List Byte → List Byte
  | 0, _, acc => acc
  | fuel + 1, n, acc =>
    if n = 0 then acc else hexDigits fuel (n / 16) (hexDigit (n % 16) :: acc)

/-- `<hex-offset>`: upper case, no leading zeros, at least one digit (R74). -/
def hexOffset (off : Offset) : List Byte :=
  if off = 0 then [hexDigit 0] else hexDigits 8 off.toNat []

/-- `Log entry: ` (R73). -/
def entryPrefix : List Byte := ascii ['L', 'o', 'g', ' ', 'e', 'n', 't', 'r', 'y', ':', ' ']

/-- `. Memory address: 0X` (R73). -/
def entryInfix : List Byte :=
  ascii ['.', ' ', 'M', 'e', 'm', 'o', 'r', 'y', ' ', 'a', 'd', 'd', 'r', 'e', 's', 's', ':', ' ', '0', 'X']

/-- `DIAG_TEXT`: any non-empty string (R77). -/
def diagText (kind : ErrKind) (op : OpSel) (info : Nat) : List Byte :=
  Config.diagHead kind.code op.code info :: Config.diagTail kind.code op.code info

/-- The text body of a report (R72 to R77). -/
def Report.body : Report → List Byte
  | .bootMsg => ascii ['B', 'o', 'o', 't', '.']
  | .entryMsg payload offset => entryPrefix ++ payload ++ entryInfix ++ hexOffset offset
  | .noEntriesMsg =>
    ascii ['N', 'o', ' ', 'v', 'a', 'l', 'i', 'd', ' ', 'l', 'o', 'g', ' ', 'e', 'n', 't', 'r', 'i', 'e', 's', ' ',
      'f', 'o', 'u', 'n', 'd', '!']
  | .invalidInputMsg => ascii ['I', 'n', 'v', 'a', 'l', 'i', 'd', ' ', 'i', 'n', 'p', 'u', 't', '!']
  | .errorMsg kind operation info => diagText kind operation info
  | .echo b => [b]

end Sys2Proof.Machine
end

