-- ==== Sys2Proof/Safety.lean ====
section
/-! DEFINITION. The terms claims are stated in: what the channel will answer, which slots hold an entry, and the invariant of
the block. -/

namespace Sys2Proof.Machine

/-- The next `n` transactions succeed. -/
abbrev ChannelOk (s : State) (n : Nat) : Prop := ∀ j, j < n → answerAt s j = .ok

/-- The next `n` transactions succeed and the one after them gets the answer `a`. -/
abbrev ChannelThen (s : State) (n : Nat) (a : Answer) : Prop := ChannelOk s n ∧ answerAt s n = a

/-- The bytes of slot `i` (20_memory.md R41). -/
def slotImage (m : Memory) (i : Nat) : List Byte := Memory.bytes m (i * Config.slotSize) Config.slotSize

/-- The payload of the entry slot `i` holds, or `none` for an invalid slot (41_slot_codec.md R96). -/
def entryAt (p : Config.Params) (m : Memory) (i : Nat) : Option (List Byte) := slotPayload p.limit (slotImage m i)

/-- Slots `0 .. k-1` hold the entries with these `k` payloads, in order. -/
abbrev LeadingEntries (p : Config.Params) (m : Memory) (ps : List (List Byte)) : Prop :=
  ∀ i (h : i < ps.length), entryAt p m i = some ps[i]

/-- `k` slot reads, in the order of the slots, all successful (20_memory.md R57). -/
def readTxns (k : Nat) : List Txn := (List.range k).map fun i => .read (slotOffset i) Config.slotSize .ok

/-- `k` one-byte erase writes, in the order of the slots, all successful (R57). -/
def eraseTxns (k : Nat) : List Txn := (List.range k).map fun i => .write (slotOffset i) [Config.eraseByte] .ok

/-- The entries with these payloads at slots 0, 1, ... (42_log_engine.md R114). -/
def entriesOf (ps : List (List Byte)) : List Entry := ps.mapIdx fun i p => ⟨p, slotOffset i⟩

/-- What the `Read` state reports of an entry (43_command_fsm.md R134). -/
def Entry.report (e : Entry) : Report := .entryMsg e.payload e.offset

/-- The block itself moves, from the state `u`: no host event is waiting, or the event at the head lets the block run
(notes/assumptions/14.md). -/
abbrev BlockMoves (s u : State) : Prop :=
  (s.events = [] ∧ u = s) ∨ (∃ rest, s.events = .run :: rest ∧ u = { s with events := rest })

/-- A reset strikes at one of the next `n` transactions, all before it successful: it ends an operation of at most `n`
transactions that starts here (70_reset_and_hazards.md R171; 20_memory.md R57). -/
abbrev ResetStrikes (n : Nat) (s : State) : Prop :=
  ∃ j, j < n ∧ ChannelOk s j ∧ (answerAt s j = .resetBefore ∨ answerAt s j = .resetDuring)

/-- The state without the channel answers the next `n` transactions take. -/
def State.spent (n : Nat) (s : State) : State := { s with answers := s.answers.drop n, tick := s.tick + n }

/-- The operation code of an internal operation (30_encoding.md R69); a command has none. -/
def opselOf : Instr → Option OpSel
  | .reset => none
  | .erase => none
  | .write => none
  | .read => none
  | .emptyLine => none
  | .unrecognisedLine _ => none
  | .crc16 _ => some .crc16
  | .encode _ => some .encode
  | .decode _ => some .decode
  | .bootscan => some .bootscan
  | .append _ => some .append
  | .eraseall => some .eraseall
  | .readall => some .readall

/-- Several instructions, one after the other. -/
def execAll : List Instr → State → Host.Outcome State Fault Refusal
  | [], s => .next s
  | i :: is, s =>
    match exec i s with
    | .next t => execAll is t
    | .fault r => .fault r
    | .refused r => .refused r

/-- The state with what nothing may read, the reports and the trace, blotted out (10_state.md R30). -/
def State.unobserved (s : State) : State := { s with out := [], trace := [] }

/-- A legal cursor: slot-aligned, 0 to `CAPACITY` (10_state.md R24). -/
abbrev CursorOk (c : Offset) : Prop := c.toNat % Config.slotSize = 0 ∧ c.toNat ≤ Config.capacity

/-- A transaction the block may issue (20_memory.md R49 to R51): slot-aligned, inside the Medium, and a read of one slot or a
write of one byte or of a frame. -/
def TxnOk : Txn → Prop
  | .read a n _ => a.toNat % Config.slotSize = 0 ∧ n = Config.slotSize ∧ a.toNat + n ≤ Config.capacity
  | .write a v _ =>
    a.toNat % Config.slotSize = 0 ∧ (v.length = 1 ∨ (4 ≤ v.length ∧ v.length ≤ Config.slotSize - 1)) ∧
      a.toNat + v.length ≤ Config.capacity

/-- A report the block may emit: `DecodeInvalid` is never surfaced (60_exceptions.md R152), and an entry's offset is that of a
slot and its payload a string a slot can hold (41_slot_codec.md R96, 42_log_engine.md R114). -/
def ReportOk : Report → Prop
  | .errorMsg kind _ _ => kind ≠ .decodeInvalid
  | .entryMsg payload offset =>
    offset.toNat % Config.slotSize = 0 ∧ offset.toNat ≤ Config.lastOffset ∧
      1 ≤ payload.length ∧ payload.length + 3 ≤ Config.slotSize ∧ Config.terminator ∉ payload
  | _ => True

/-- The invariant of the block and its Medium. -/
structure State.Inv (s : State) : Prop where
  /-- the Medium is in its canonical form -/
  medium : Memory.wf s.med = true
  /-- the cursor is legal (R24) -/
  cursor : CursorOk s.cursor
  /-- `SLOTBUF` is `SLOT_SIZE` bytes (R29) -/
  slotbuf : s.slotbuf.length = Config.slotSize
  /-- every transaction ever issued was one the block may issue -/
  trace : ∀ x ∈ s.trace, TxnOk x
  /-- every report is one the block may emit -/
  reports : ∀ r ∈ s.out, ReportOk r

end Sys2Proof.Machine
end

