-- ==== Sys2Proof/Certificates/Slice0/Obligations.lean ====
section
/-! DEFINITION. The statements for the provers. A statement's docstring names the passage of the spec it rests on. "The spec's
own choice" marks a passage the spec itself calls its decision (92_eei_decisions.md) or its derivation. -/

open Sys2Proof Sys2Proof.Machine

/-! ### Encodings -/

/-- Decoding the code of any well-formed instruction gives the instruction back, for every operand
(30_encoding.md sections 2, 3 and 6). The layout of a call's operand is the model's choice, notes/assumptions/16.md. -/
def Obligations.DecodeOfEncodeIsTheInstruction : Prop :=
  ∀ i : Instr, i.wellFormed = true → decode (encode i) = .ok i

/-- A line has one meaning: whatever a line decodes to is well formed and is encoded by that very line (30_encoding.md
sections 2 and 6, exact byte-for-byte matching). -/
def Obligations.EveryLineHasOneMeaning : Prop :=
  ∀ (bytes : List Byte) (i : Instr), decode (.line bytes) = .ok i → i.wellFormed = true ∧ encode i = .line bytes

/-- The lines of 30_encoding.md section 2, written out byte by byte, decode to their commands. Calls whose first byte is an
`OPSEL` of section 3 decode to that operation: that a call is such bytes, with the operand's bytes after `OPSEL`, is the
model's choice, notes/assumptions/16.md. The byte values of the lines are general knowledge, notes/assumptions/24.md. -/
def Obligations.SpecWordsDecode : Prop :=
  decode (.line [0x65, 0x72, 0x61, 0x73, 0x65, 0x0A]) = .ok .erase ∧
  decode (.line [0x77, 0x72, 0x69, 0x74, 0x65, 0x0A]) = .ok .write ∧
  decode (.line [0x72, 0x65, 0x61, 0x64, 0x0A]) = .ok .read ∧
  decode (.line [0x0A]) = .ok .emptyLine ∧
  decode (.line [0x72, 0x65, 0x61, 0x64, 0x20, 0x0A]) = .ok (.unrecognisedLine [0x72, 0x65, 0x61, 0x64, 0x20]) ∧
  decode (.call [0x01, 0x31]) = .ok (.crc16 [0x31]) ∧
  decode (.call [0x04]) = .ok .bootscan ∧
  decode (.call [0x06]) = .ok .eraseall

/-- The unassigned operation codes 0x0 and 0x8 to 0xF select nothing (30_encoding.md section 3; 93_implementation_defined.md U15:
"refuse"). That `OPSEL` is bits 3:0 of a bench call's first byte, that bits 7:4 are ignored, and that the step refuses such a
call by name is the model's choice, notes/assumptions/16.md. -/
def Obligations.UnassignedOpselIsRefused : Prop :=
  ∀ (s : State) (b : Byte) (operand : List Byte) (rest : List Event),
    s.events = .call (b :: operand) :: rest → (b.toNat % 16 = 0 ∨ 8 ≤ b.toNat % 16) →
    decode (.call (b :: operand)) = .error (.unassignedOpsel (b.toNat % 16)) ∧
      step s = .refused (.undefinedCall (.unassignedOpsel (b.toNat % 16)))

/-! ### A step runs the decoded instruction -/

/-- The block waits in `UserInput` and a terminated line stands in `IN`: the step takes the line, echoes every byte of it and
the terminator, and runs the instruction the line decodes to (43_command_fsm.md section 4; D17 and D30 are the spec's own
choice). -/
def Obligations.StepRunsTheTypedLine : Prop :=
  ∀ (s u : State) (line rest : List Byte) (i : Instr),
    BlockMoves s u → u.fsm = .userInput → u.inp = line ++ Config.newline :: rest → Config.newline ∉ line →
    decode (.line (line ++ [Config.newline])) = .ok i →
    step s = exec i { u with inp := rest, out := u.out ++ (line ++ [Config.newline]).map .echo }

/-- The reset input and the model's own bench call each run exactly their instruction, and a host byte is appended to `IN`
(43_command_fsm.md sections 2 and 4; the event list is the model's choice, notes/assumptions/14.md and 16.md). -/
def Obligations.StepRunsTheNextEvent : Prop :=
  ∀ (s : State) (rest : List Event),
    (s.events = .reset :: rest → step s = exec .reset { s with events := rest }) ∧
    (∀ bytes i, s.events = .call bytes :: rest → decode (.call bytes) = .ok i →
      step s = exec i { s with events := rest }) ∧
    (∀ b, s.events = .byte b :: rest → step s = .next { s with events := rest, inp := s.inp ++ [b] })

/-- Each action state runs its operation and then what the sequencer does with the value returned (43_command_fsm.md
sections 1 and 3). -/
def Obligations.ActionStatesRunTheirOperation : Prop :=
  ∀ s u : State, BlockMoves s u →
    (u.fsm = .bootScan → step s = onNext afterBootScan (exec .bootscan u)) ∧
    (u.fsm = .erase → step s = onNext afterOk (exec .eraseall u)) ∧
    (u.fsm = .write → u.pending = .bootEntry → step s = onNext afterOk (exec (.append [0x42, 0x6F, 0x6F, 0x74]) u)) ∧
    (u.fsm = .write → u.pending = .probeEntry → step s = onNext afterOk (exec (.append u.params.probe.bytes) u)) ∧
    (u.fsm = .read → step s = onNext afterRead (exec .readall u))

/-- Without a terminator in `IN` the block waits in `UserInput` and nothing changes (43_command_fsm.md sections 1 and 5). That
waiting is a step that changes nothing is the model's choice, notes/assumptions/15.md. -/
def Obligations.UserInputWaitsForALine : Prop :=
  ∀ s u : State, BlockMoves s u → u.fsm = .userInput → Config.newline ∉ u.inp → step s = .next u

/-! ### The Checksum Engine -/

/-- CRC16 completes on every byte sequence with the value of the loop of R80, which starts from the seed, takes the bytes in
order, and may be continued over a second sequence (40_checksum.md sections 1 and 2; the step's constants are the spec's own
choice D2). -/
def Obligations.Crc16FoldsTheBytesInOrder : Prop :=
  ∀ (a b : List Byte) (s : State),
    exec (.crc16 (a ++ b)) s =
      .next { s with crcAcc := b.foldl crcStep (crc16 a), result := .checksum (b.foldl crcStep (crc16 a)) } ∧
    crc16 [] = 0xFFFF ∧ crc16 [0xFF] = 0xFF00 ∧ crc16 [0x01, 0x02] = 0x0E7C ∧ crc16 [0x02, 0x01] = 0x6B4C

/-- Self-sealing (R83): the checksum of a sequence followed by its own checksum, high byte first, is zero, and CRC16 says
so. -/
def Obligations.ChecksumIsSelfSealing : Prop :=
  ∀ (d : List Byte) (s : State),
    exec (.crc16 (d ++ [(crc16 d).extractLsb' 8 8, (crc16 d).extractLsb' 0 8])) s =
      .next { s with crcAcc := 0, result := .checksum 0 }

/-- Converse of sealing: two bytes seal a sequence only if they are its checksum (40_checksum.md section 2, derived by the spec
from the constants of its choice D2). -/
def Obligations.OnlyTheOwnChecksumSeals : Prop :=
  ∀ (d : List Byte) (h l : Byte),
    crc16 (d ++ [h, l]) = 0 ↔ h = (crc16 d).extractLsb' 8 8 ∧ l = (crc16 d).extractLsb' 0 8

/-- Error detection (40_checksum.md section 2, derived by the spec from D2): a step is a bijection of the accumulator for each
byte and injective in the byte for each accumulator, and sequences that differ in one byte have different checksums. -/
def Obligations.ChecksumDetectsOneChangedByte : Prop :=
  (∀ b : Byte, Function.Bijective fun c : Half => crcStep c b) ∧
  (∀ c : Half, Function.Injective fun b : Byte => crcStep c b) ∧
  ∀ (a b : List Byte) (x y : Byte), x ≠ y → crc16 (a ++ x :: b) ≠ crc16 (a ++ y :: b)

/-- One step of a most-significant-bit-first cyclic redundancy check with polynomial 0x1021 (40_checksum.md R86). -/
def Sys2Proof.Claims.bitStep (c : Half) : Half := if c.msb then (c <<< 1) ^^^ 0x1021 else c <<< 1

/-- The byte-wise check: the byte enters at the top, then eight bit steps. -/
def Sys2Proof.Claims.bitSerialByte (c : Half) (b : Byte) : Half :=
  Sys2Proof.Claims.bitStep^[8] (c ^^^ (b.setWidth 16 <<< 8))

/-- The table-free byte step equals the bit-serial code with polynomial 0x1021, so CRC16 of every byte sequence is that code's
check, and CRC16 of `123456789` is 0x29B1 (40_checksum.md section 2, D2; general knowledge in the spec, G1 and G5). -/
def Obligations.ChecksumIsTheBitSerialCode : Prop :=
  (∀ bytes : List Byte, crc16 bytes = bytes.foldl Sys2Proof.Claims.bitSerialByte 0xFFFF) ∧
    crc16 [0x31, 0x32, 0x33, 0x34, 0x35, 0x36, 0x37, 0x38, 0x39] = 0x29B1

/-! ### The Slot Codec -/

/-- ENCODE of a legal payload completes: the frame is payload, terminator and the checksum over both, high byte first; it
stands at the start of SLOTBUF, whose other bytes stay (41_slot_codec.md section 3; legality is the spec's own choice D5). -/
def Obligations.EncodeBuildsTheFrame : Prop :=
  ∀ (p : List Byte) (s : State), 1 ≤ p.length → p.length ≤ 60 → (0x00 : Byte) ∉ p →
    exec (.encode p) s = .next { s with
      slotbuf := p ++ [0x00, (crc16 (p ++ [0x00])).extractLsb' 8 8, (crc16 (p ++ [0x00])).extractLsb' 0 8] ++
        s.slotbuf.drop (p.length + 3)
      crcAcc := crc16 (p ++ [0x00])
      result := .frame (p ++ [0x00, (crc16 (p ++ [0x00])).extractLsb' 8 8, (crc16 (p ++ [0x00])).extractLsb' 0 8]) }

/-- ENCODE of an illegal payload raises `PayloadInvalid` with the length and writes no working storage (41_slot_codec.md section 3,
60_exceptions.md section 1; the spec's own choice D5). No state of the Command State Machine runs ENCODE alone: that the error
is then taken, with a report under the operation ENCODE and `fsm` at `UserInput`, is the model's choice,
notes/assumptions/19.md and 18.md. -/
def Obligations.EncodeRefusesAnIllegalPayload : Prop :=
  ∀ (p : List Byte) (s : State), (p = [] ∨ 60 < p.length ∨ (0x00 : Byte) ∈ p) →
    exec (.encode p) s = .next { s with
      out := s.out ++ [.errorMsg .payloadInvalid .encode p.length]
      fsm := .userInput
      result := .raised .payloadInvalid p.length }

/-- The conditions of R96 on a slot image, with the search window as an argument: `p` is the entry it holds. -/
def Sys2Proof.Claims.Valid (limit : Nat) (image p : List Byte) : Prop :=
  ∃ t, image[0]? ≠ some 0x00 ∧ t < limit ∧ image[t]? = some 0x00 ∧ (∀ j, j < t → image[j]? ≠ some 0x00) ∧
    t + 3 ≤ 64 ∧ crc16 (image.take (t + 3)) = 0x0000 ∧ p = image.take t

/-- Validity (R96), of a slot image and a search window: a slot is valid exactly when (a) its first byte is non-zero, (b) a
terminator stands within the window, the least of them at `t` (so `t` is at least 1), (s) the two checksum bytes lie in the
slot, and (c) the checksum over payload, terminator and checksum bytes is zero, which holds exactly when those two bytes are
the checksum of the bytes before them. The bytes after them play no part, and (s) always holds for a window of 61 or 62. -/
def Obligations.ValidityIsTheThreeConditions : Prop :=
  ∀ (limit : Nat) (image : List Byte), image.length = 64 →
    ((slotPayload limit image).isSome = true ↔
      ∃ t, image[0]? ≠ some 0x00 ∧ 1 ≤ t ∧ t < limit ∧ image[t]? = some 0x00 ∧ (∀ j, j < t → image[j]? ≠ some 0x00) ∧
        t + 3 ≤ 64 ∧ crc16 (image.take (t + 3)) = 0x0000) ∧
    (∀ t, t + 3 ≤ 64 → (crc16 (image.take (t + 3)) = 0x0000 ↔
      image[t + 1]? = some ((crc16 (image.take (t + 1))).extractLsb' 8 8) ∧
        image[t + 2]? = some ((crc16 (image.take (t + 1))).extractLsb' 0 8))) ∧
    (∀ (t : Nat) (image' : List Byte), image'.length = 64 → t < limit → image[t]? = some 0x00 →
      image'.take (t + 3) = image.take (t + 3) → (slotPayload limit image').isSome = (slotPayload limit image).isSome) ∧
    (limit = 61 ∨ limit = 62 → ∀ t, t < limit → t + 3 ≤ 64)

/-- DECODE completes on every slot image, answers `Some` exactly for the images that meet the validity conditions, and the payload
is what stands before the terminator; nothing but CRC_ACC changes (41_slot_codec.md section 4, the rules of validity and of
DECODE). The bytes after the frame play no part; the window is 61 or 62, an open parameter of the spec (00_scope.md section 3,
D3; notes/assumptions/3.md), and condition (s) always holds for it. What CRC_ACC holds is left open, and the result is the
model's own field, notes/assumptions/12.md and 13.md. -/
def Obligations.DecodeJudgesByTheValidityRule : Prop :=
  ∀ (image : List Byte) (s : State), image.length = 64 →
    ∃ c v, exec (.decode image) s = .next { s with crcAcc := c, result := .decoded v } ∧
      (∀ p, v = some p ↔ Sys2Proof.Claims.Valid s.params.limit image p) ∧
      (∀ p image', v = some p → image'.length = 64 → image'.take (p.length + 3) = image.take (p.length + 3) →
        Sys2Proof.Claims.Valid s.params.limit image' p) ∧
      (s.params.limit = 61 ∨ s.params.limit = 62) ∧ ∀ t, t < s.params.limit → t + 3 ≤ 64

/-- Round trip and tolerance of trailing bytes (41_slot_codec.md section 4, derived by the spec; 30_encoding.md section 1): the
frame ENCODE answers for a legal payload, followed by any bytes, decodes to that payload, in any two states. -/
def Obligations.FrameDecodesWhateverFollows : Prop :=
  ∀ (p trailing : List Byte) (s u : State), 1 ≤ p.length → p.length ≤ 60 → (0x00 : Byte) ∉ p →
    p.length + 3 + trailing.length = 64 →
    ∃ (f : List Byte) (s' u' : State), exec (.encode p) s = .next s' ∧ s'.result = .frame f ∧
      exec (.decode (f ++ trailing)) u = .next u' ∧ u'.result = .decoded (some p)

/-- Decoding and encoding are inverse on frames (41_slot_codec.md section 4, derived by the spec): a decoded payload that is not
too long is legal, and its frame is the start of the slot image. -/
def Obligations.DecodedPayloadEncodesToItsFrame : Prop :=
  ∀ (image p : List Byte) (s s' u : State), image.length = 64 → exec (.decode image) s = .next s' →
    s'.result = .decoded (some p) → p.length ≤ 60 →
    ∃ u', exec (.encode p) u = .next u' ∧ u'.result = .frame (image.take (p.length + 3))

/-- A frame with one byte changed, a checksum byte or a payload byte changed to another non-zero value, is not valid, whatever
follows it (41_slot_codec.md section 4, corner case 5, derived by the spec from D2). -/
def Obligations.OneChangedFrameByteIsNotDecoded : Prop :=
  ∀ (p trailing : List Byte) (k : Nat) (b : Byte) (s : State), 1 ≤ p.length → p.length ≤ 60 → (0x00 : Byte) ∉ p →
    p.length + 3 + trailing.length = 64 → k < p.length + 3 → k ≠ p.length → (frameOf p)[k]? ≠ some b →
    (k < p.length → b ≠ 0x00) →
    ∃ c, exec (.decode ((frameOf p).set k b ++ trailing)) s = .next { s with crcAcc := c, result := .decoded none }

/-! ### The Log Engine -/

/-- BOOTSCAN on a log with room: with the first `k` slots valid, slot `k` invalid and the channel answering, it completes with
`Empty` at slot `k`, the cursor there, `k + 1` reads and no change to the Medium (42_log_engine.md section 2; that it writes
the cursor is the spec's own choice D8). -/
def Obligations.BootscanStopsAtTheFirstInvalidSlot : Prop :=
  ∀ (s : State) (ps : List (List Byte)), ps.length < 32 → LeadingEntries s.params s.med ps →
    entryAt s.params s.med ps.length = none → ChannelOk s (ps.length + 1) →
    ∃ c, exec .bootscan s = .next { s.spent (ps.length + 1) with
      cursor := slotOffset ps.length
      scanOff := slotOffset ps.length
      slotbuf := slotImage s.med ps.length
      crcAcc := c
      trace := s.trace ++ readTxns (ps.length + 1)
      result := .recovery (.empty (slotOffset ps.length)) }

/-- BOOTSCAN on a full log: 32 reads, `Full`, and the cursor at `CAPACITY` (42_log_engine.md section 2; D8 is the spec's own
choice). -/
def Obligations.BootscanReportsAFullLog : Prop :=
  ∀ (s : State) (ps : List (List Byte)), ps.length = 32 → LeadingEntries s.params s.med ps → ChannelOk s 32 →
    ∃ c, exec .bootscan s = .next { s.spent 32 with
      cursor := 2048
      scanOff := 1984
      slotbuf := slotImage s.med 31
      crcAcc := c
      trace := s.trace ++ readTxns 32
      result := .recovery .full }

/-- BOOTSCAN with a failed read at slot `k` behind `k` valid slots: `ChannelFailure` at that offset is taken, the cursor keeps
its value and no further read is issued (42_log_engine.md section 2; the spec's own choice D11). -/
def Obligations.BootscanReadFailureKeepsTheCursor : Prop :=
  ∀ (s : State) (ps : List (List Byte)), ps.length < 32 → LeadingEntries s.params s.med ps →
    ChannelThen s ps.length .fail →
    ∃ c image, exec .bootscan s = .next { s.spent (ps.length + 1) with
      out := s.out ++ [.errorMsg .channelFailure .bootscan (ps.length * 64)]
      fsm := .userInput
      scanOff := slotOffset ps.length
      slotbuf := image
      crcAcc := c
      trace := s.trace ++ readTxns ps.length ++ [.read (slotOffset ps.length) 64 .fail]
      result := .raised .channelFailure (ps.length * 64) }

/-- APPEND of a legal payload with room and an answering channel completes: one write of the frame at the cursor, the cursor
one slot on, every byte outside the frame's bytes as before (42_log_engine.md section 3; one write of `n + 3` bytes is the
spec's own choice D6). -/
def Obligations.AppendStoresTheFrameAtTheCursor : Prop :=
  ∀ (s : State) (p : List Byte), Memory.wf s.med = true → s.cursor.toNat ≤ 1984 → 1 ≤ p.length → p.length ≤ 60 →
    (0x00 : Byte) ∉ p → ChannelOk s 1 →
    ∃ t, exec (.append p) s = .next t ∧
      t = { s.spent 1 with
        cursor := s.cursor + 64
        med := t.med
        slotbuf := frameOf p ++ s.slotbuf.drop (p.length + 3)
        crcAcc := crc16 (p ++ [0x00])
        trace := s.trace ++ [.write s.cursor (frameOf p) .ok]
        result := .ok } ∧
      t.cursor.toNat = s.cursor.toNat + 64 ∧ Memory.wf t.med = true ∧
      Memory.bytes t.med s.cursor.toNat (p.length + 3) = frameOf p ∧
      ∀ a, (a < s.cursor.toNat ∨ s.cursor.toNat + (p.length + 3) ≤ a) → Memory.read t.med a = Memory.read s.med a

/-- APPEND on a full log is refused before anything else, whatever the payload: `ProtocolViolation` with the cursor's value, no
transaction, nothing else changed (42_log_engine.md section 3, 60_exceptions.md sections 1 and 3; the spec's own choice
D12). -/
def Obligations.AppendOnAFullLogIsRefused : Prop :=
  ∀ (s : State) (p : List Byte), 1984 < s.cursor.toNat →
    exec (.append p) s = .next { s with
      out := s.out ++ [.errorMsg .protocolViolation .append s.cursor.toNat]
      fsm := .userInput
      result := .raised .protocolViolation s.cursor.toNat }

/-- APPEND of an illegal payload with room raises `PayloadInvalid` and issues no transaction (42_log_engine.md section 3,
60_exceptions.md sections 1, 3 and 4; the spec's own choice D5). No command appends an illegal payload: that the error is then
taken as 60_exceptions.md section 4 says, and that its report names APPEND, is the model's choice, notes/assumptions/19.md and
18.md. -/
def Obligations.AppendOfAnIllegalPayloadIsRefused : Prop :=
  ∀ (s : State) (p : List Byte), s.cursor.toNat ≤ 1984 → (p = [] ∨ 60 < p.length ∨ (0x00 : Byte) ∈ p) →
    exec (.append p) s = .next { s with
      out := s.out ++ [.errorMsg .payloadInvalid .append p.length]
      fsm := .userInput
      result := .raised .payloadInvalid p.length }

/-- APPEND whose write fails: `ChannelFailure` at the cursor is taken, the cursor keeps its value, and every byte outside the
frame's span is as before; the span holds unspecified bytes (42_log_engine.md section 3, 20_memory.md section 2; the spec's
own choices D10 and D23). The report and `fsm` at `UserInput` are those of 60_exceptions.md section 4 and 43_command_fsm.md
section 3; that APPEND run alone takes its error so too is the model's choice, notes/assumptions/19.md. -/
def Obligations.AppendFailedWriteSpoilsOnlyItsSpan : Prop :=
  ∀ (s : State) (p : List Byte), Memory.wf s.med = true → s.cursor.toNat ≤ 1984 → 1 ≤ p.length → p.length ≤ 60 →
    (0x00 : Byte) ∉ p → ChannelThen s 0 .fail →
    ∃ t, exec (.append p) s = .next t ∧
      t = { s.spent 1 with
        med := t.med
        out := s.out ++ [.errorMsg .channelFailure .append s.cursor.toNat]
        fsm := .userInput
        slotbuf := frameOf p ++ s.slotbuf.drop (p.length + 3)
        crcAcc := crc16 (p ++ [0x00])
        trace := s.trace ++ [.write s.cursor (frameOf p) .fail]
        result := .raised .channelFailure s.cursor.toNat } ∧
      Memory.wf t.med = true ∧
      ∀ a, (a < s.cursor.toNat ∨ s.cursor.toNat + (p.length + 3) ≤ a) → Memory.read t.med a = Memory.read s.med a

/-- ERASEALL with an answering channel completes: 32 one-byte writes in ascending order, the first byte of every slot zero,
every other byte as before, and the cursor 0 (R112). -/
def Obligations.EraseallInvalidatesEverySlot : Prop :=
  ∀ s : State, Memory.wf s.med = true → ChannelOk s 32 →
    ∃ t, exec .eraseall s = .next t ∧
      t = { s.spent 32 with
        cursor := 0
        med := t.med
        scanOff := 1984
        trace := s.trace ++ eraseTxns 32
        result := .ok } ∧
      Memory.wf t.med = true ∧
      ∀ a, Memory.read t.med a = if a < 2048 ∧ a % 64 = 0 then 0x00 else Memory.read s.med a

/-- ERASEALL whose write at slot `k` fails: `ChannelFailure` there is taken, no further write is issued, the cursor keeps its
value; slots before it are invalidated, its own first byte is unspecified, all other bytes are as before, and after any earlier
success slot 0 is invalid (42_log_engine.md section 4; the spec's own choices D23 and D29). -/
def Obligations.EraseallFailureKeepsTheCursor : Prop :=
  ∀ (s : State) (k : Nat), Memory.wf s.med = true → k < 32 → ChannelThen s k .fail →
    ∃ t, exec .eraseall s = .next t ∧
      t = { s.spent (k + 1) with
        med := t.med
        out := s.out ++ [.errorMsg .channelFailure .eraseall (k * 64)]
        fsm := .userInput
        scanOff := slotOffset k
        trace := s.trace ++ eraseTxns k ++ [.write (slotOffset k) [0x00] .fail]
        result := .raised .channelFailure (k * 64) } ∧
      Memory.wf t.med = true ∧
      (∀ a, a ≠ k * 64 →
        Memory.read t.med a = if a < k * 64 ∧ a % 64 = 0 then 0x00 else Memory.read s.med a) ∧
      (0 < k → entryAt t.params t.med 0 = none)

/-- READALL with an answering channel completes with exactly the leading entries, each with its slot's offset, and reads
nothing past the first invalid slot or the last slot (42_log_engine.md section 5). The `Read` state reports each entry
(43_command_fsm.md section 3; D19); that READALL reports nothing in another state is the model's choice,
notes/assumptions/29.md. -/
def Obligations.ReadallYieldsTheLeadingEntries : Prop :=
  ∀ (s : State) (ps : List (List Byte)), ps.length ≤ 32 → LeadingEntries s.params s.med ps →
    (ps.length < 32 → entryAt s.params s.med ps.length = none) → ChannelOk s (min (ps.length + 1) 32) →
    ∃ c, exec .readall s = .next { s.spent (min (ps.length + 1) 32) with
      out := s.out ++ (if s.fsm = .read then (entriesOf ps).map Entry.report else [])
      scanOff := slotOffset (min ps.length 31)
      slotbuf := slotImage s.med (min ps.length 31)
      crcAcc := c
      trace := s.trace ++ readTxns (min (ps.length + 1) 32)
      result := .exhausted (decide (ps.length < 32))
      yielded := entriesOf ps }

/-- READALL whose read of slot `k` fails behind `k` valid slots: the entries so far stay delivered, `ChannelFailure` is taken
after their reports, nothing else is read (42_log_engine.md section 5; the spec's own choice D34). The entries are reported in
the `Read` state (43_command_fsm.md section 3); that READALL reports none in another state is the model's choice,
notes/assumptions/29.md, and that it takes its error there too, notes/assumptions/19.md. -/
def Obligations.ReadallFailureKeepsDeliveredEntries : Prop :=
  ∀ (s : State) (ps : List (List Byte)), ps.length < 32 → LeadingEntries s.params s.med ps →
    ChannelThen s ps.length .fail →
    ∃ c image, exec .readall s = .next { s.spent (ps.length + 1) with
      out := s.out ++ (if s.fsm = .read then (entriesOf ps).map Entry.report else []) ++
        [.errorMsg .channelFailure .readall (ps.length * 64)]
      fsm := .userInput
      scanOff := slotOffset ps.length
      slotbuf := image
      crcAcc := c
      trace := s.trace ++ readTxns ps.length ++ [.read (slotOffset ps.length) 64 .fail]
      result := .raised .channelFailure (ps.length * 64)
      yielded := entriesOf ps }

/-- After a successful ERASEALL a BOOTSCAN answers `Empty(0)`, whatever the Medium held (42_log_engine.md section 6, item 3;
20_memory.md section 6). -/
def Obligations.EraseThenBootscanFindsAnEmptyLog : Prop :=
  ∀ s : State, Memory.wf s.med = true → ChannelOk s 33 →
    ∃ t, execAll [.eraseall, .bootscan] s = .next t ∧ t.result = .recovery (.empty 0) ∧ t.cursor = 0

/-- Entries appended from cursor 0 are read back: with room for them, an answering channel, and an invalid slot after the last
(or none left), READALL yields exactly those payloads in order at their offsets (42_log_engine.md section 6, item 4;
90_conflicts.md C10). -/
def Obligations.AppendedEntriesAreReadBack : Prop :=
  ∀ (s : State) (ps : List (List Byte)), Memory.wf s.med = true → s.cursor = 0 → ps.length ≤ 32 →
    (∀ p ∈ ps, 1 ≤ p.length ∧ p.length ≤ 60 ∧ (0x00 : Byte) ∉ p) →
    (ps.length < 32 → entryAt s.params s.med ps.length = none) →
    ChannelOk s (ps.length + min (ps.length + 1) 32) →
    ∃ t, execAll (ps.map .append ++ [.readall]) s = .next t ∧ t.yielded = entriesOf ps ∧
      t.cursor = slotOffset ps.length

/-! ### RESET and the command lines -/

/-- RESET completes in every state: cursor 0, `BootScan`, `IN` and `OUT` empty, and the Medium as it was (10_state.md section 7;
43_command_fsm.md section 2; D24 is the spec's own choice). The working storage holds some values and the environment stays,
which is the model's choice, notes/assumptions/9.md. -/
def Obligations.ResetClearsTheBlockAndKeepsTheMedium : Prop :=
  ∀ s : State, ∃ (pending : Pending) (crcAcc : Half) (slotbuf : List Byte) (scanOff : Offset), slotbuf.length = 64 ∧
    exec .reset s = .next { s with
      cursor := 0
      fsm := .bootScan
      pending := pending
      inp := []
      out := []
      crcAcc := crcAcc
      slotbuf := slotbuf
      scanOff := scanOff
      tick := s.tick + 1
      result := .nothing
      yielded := [] }

/-- A reset while the write of an APPEND is outstanding, or before it is issued: the block is as after RESET, and every byte
outside the frame's span is as before (70_reset_and_hazards.md section 1; the spec's own choices D23 and D24). -/
def Obligations.ResetDuringAppendSpoilsOnlyItsSpan : Prop :=
  ∀ (s : State) (p : List Byte) (answer : Answer), Memory.wf s.med = true → s.cursor.toNat ≤ 1984 → 1 ≤ p.length →
    p.length ≤ 60 → (0x00 : Byte) ∉ p → ChannelThen s 0 answer → answer = .resetBefore ∨ answer = .resetDuring →
    ∃ t, exec (.append p) s = .next t ∧ t.cursor = 0 ∧ t.fsm = .bootScan ∧ t.inp = [] ∧ t.out = [] ∧
      t.params = s.params ∧ t.events = s.events ∧ Memory.wf t.med = true ∧
      (answer = .resetBefore → t.med = s.med ∧ t.trace = s.trace) ∧
      ∀ a, (a < s.cursor.toNat ∨ s.cursor.toNat + (p.length + 3) ≤ a) → Memory.read t.med a = Memory.read s.med a

/-- A reset at the write of slot `k` of an ERASEALL: the block is as after RESET, the slots before it are invalidated, its own
first byte is open, and all other bytes are as before (70_reset_and_hazards.md section 1; the spec's own choice D24). -/
def Obligations.ResetDuringEraseKeepsCompletedWrites : Prop :=
  ∀ (s : State) (k : Nat) (answer : Answer), Memory.wf s.med = true → k < 32 → ChannelThen s k answer →
    answer = .resetBefore ∨ answer = .resetDuring →
    ∃ t, exec .eraseall s = .next t ∧ t.cursor = 0 ∧ t.fsm = .bootScan ∧ t.inp = [] ∧ t.out = [] ∧
      Memory.wf t.med = true ∧
      ∀ a, (a ≠ k * 64 ∨ answer = .resetBefore) →
        Memory.read t.med a = if a < k * 64 ∧ a % 64 = 0 then 0x00 else Memory.read s.med a

/-- A reset at the read of slot `k` of a BOOTSCAN or a READALL, behind `k` valid slots: the block is as after RESET, the Medium
is as it was, and no further read is issued (70_reset_and_hazards.md section 1; the spec's own choice D24). The working storage
holds some values and the environment goes on, which is the model's choice, notes/assumptions/9.md and 20.md. -/
def Obligations.ResetDuringAScanKeepsTheMedium : Prop :=
  ∀ (i : Instr) (s : State) (ps : List (List Byte)) (answer : Answer), i = .bootscan ∨ i = .readall → ps.length < 32 →
    LeadingEntries s.params s.med ps → ChannelThen s ps.length answer →
    answer = .resetBefore ∨ answer = .resetDuring →
    ∃ (pending : Pending) (crcAcc : Half) (slotbuf : List Byte) (scanOff : Offset), slotbuf.length = 64 ∧
      exec i s = .next { s.spent (ps.length + 1) with
        cursor := 0
        fsm := .bootScan
        pending := pending
        inp := []
        out := []
        crcAcc := crcAcc
        slotbuf := slotbuf
        scanOff := scanOff
        tick := s.tick + (ps.length + 1) + 1
        trace := s.trace ++ readTxns ps.length ++
          (if answer = .resetDuring then [.read (slotOffset ps.length) 64 .resetDuring] else [])
        result := .nothing
        yielded := [] }

/-- The command words complete in every state by selecting their states, and `write` tags the append as a probe entry
(43_command_fsm.md section 4, R137 to R139); the empty line and an unrecognised line complete in `UserInput`. -/
def Obligations.CommandLinesComplete : Prop :=
  ∀ (s : State) (line : List Byte),
    exec .erase s = .next { s with fsm := .erase } ∧
    exec .write s = .next { s with fsm := .write, pending := .probeEntry } ∧
    exec .read s = .next { s with fsm := .read } ∧
    exec .emptyLine s = .next { s with fsm := .userInput } ∧
    exec (.unrecognisedLine line) s = .next { s with fsm := .userInput, out := s.out ++ [.invalidInputMsg] }

/-- The empty line: the terminator is taken from `IN` and echoed, the block stays in `UserInput`, and nothing else changes
(43_command_fsm.md section 4; the echo is the spec's own choice D30). The terminator is 0x0A by general knowledge (D17),
PRESUMED in notes/assumptions/24.md. -/
def Obligations.EmptyLineOnlyEchoes : Prop :=
  ∀ (s u : State) (rest : List Byte), BlockMoves s u → u.fsm = .userInput → u.inp = 0x0A :: rest →
    step s = .next { u with inp := rest, out := u.out ++ [.echo 0x0A] }

/-- An unrecognised line: any non-empty line that is none of the three words is taken from `IN`, echoed, reported as invalid
input, and changes nothing else (43_command_fsm.md section 4, 30_encoding.md section 2; exact matching is the spec's own choice
D17, the echo D30). The bytes of the words and of the terminator are general knowledge, PRESUMED in
notes/assumptions/24.md. -/
def Obligations.UnrecognisedLineIsReported : Prop :=
  ∀ (s u : State) (line rest : List Byte), BlockMoves s u → u.fsm = .userInput → u.inp = line ++ 0x0A :: rest →
    (0x0A : Byte) ∉ line → line ≠ [] → line ≠ [0x65, 0x72, 0x61, 0x73, 0x65] → line ≠ [0x77, 0x72, 0x69, 0x74, 0x65] →
    line ≠ [0x72, 0x65, 0x61, 0x64] →
    step s = .next { u with inp := rest, out := u.out ++ line.map .echo ++ [.echo 0x0A, .invalidInputMsg] }

/-! ### The steps of the Command State Machine -/

/-- The `BootScan` step: with room it emits `BootMsg`, tags a boot entry and goes to `Write` with the cursor at the first invalid
slot; on a full log it goes to `Erase` and emits nothing; on a failed read it reports and goes to `UserInput` with cursor and
tag as they were. The Medium does not change (43_command_fsm.md section 3; the spec's own choices D8, D11, D33). -/
def Obligations.BootScanStepBranches : Prop :=
  ∀ (s u : State) (ps : List (List Byte)), BlockMoves s u → u.fsm = .bootScan → LeadingEntries u.params u.med ps →
    (ps.length < 32 → entryAt u.params u.med ps.length = none → ChannelOk u (ps.length + 1) →
      ∃ t, step s = .next t ∧ t.fsm = .write ∧ t.pending = .bootEntry ∧ t.cursor = slotOffset ps.length ∧
        t.out = u.out ++ [.bootMsg] ∧ t.inp = u.inp ∧ t.med = u.med ∧ t.events = u.events) ∧
    (ps.length = 32 → ChannelOk u 32 →
      ∃ t, step s = .next t ∧ t.fsm = .erase ∧ t.pending = u.pending ∧ t.cursor = 2048 ∧ t.out = u.out ∧
        t.inp = u.inp ∧ t.med = u.med ∧ t.events = u.events) ∧
    (ps.length < 32 → ChannelThen u ps.length .fail →
      ∃ t, step s = .next t ∧ t.fsm = .userInput ∧ t.pending = u.pending ∧ t.cursor = u.cursor ∧
        t.out = u.out ++ [.errorMsg .channelFailure .bootscan (ps.length * 64)] ∧ t.inp = u.inp ∧ t.med = u.med ∧
        t.events = u.events)

/-- The payload the `Write` step appends (43_command_fsm.md R132). -/
def Sys2Proof.Claims.tagged (u : State) : List Byte :=
  if u.pending = .bootEntry then [0x42, 0x6F, 0x6F, 0x74] else u.params.probe.bytes

/-- The `Write` step with room and an answering channel (R132): the frame of the tagged payload stands at the old cursor, every
byte outside it is as before, the cursor is one slot on, nothing is emitted, and the block is in `UserInput`. -/
def Obligations.WriteStepAppendsTheTaggedPayload : Prop :=
  ∀ s u : State, BlockMoves s u → u.fsm = .write → Memory.wf u.med = true → u.cursor.toNat ≤ 1984 → ChannelOk u 1 →
    ∃ t, step s = .next t ∧
      t = { u.spent 1 with
        cursor := u.cursor + 64
        fsm := .userInput
        med := t.med
        slotbuf := t.slotbuf
        crcAcc := t.crcAcc
        trace := u.trace ++ [.write u.cursor (frameOf (Sys2Proof.Claims.tagged u)) .ok]
        result := .ok } ∧
      Memory.bytes t.med u.cursor.toNat (frameOf (Sys2Proof.Claims.tagged u)).length =
        frameOf (Sys2Proof.Claims.tagged u) ∧
      ∀ a, (a < u.cursor.toNat ∨ u.cursor.toNat + (frameOf (Sys2Proof.Claims.tagged u)).length ≤ a) →
        Memory.read t.med a = Memory.read u.med a

/-- The `Write` step's errors: a full log is refused with nothing changed but the report, the state and the value returned; a
failed write is reported with the cursor, the tag and `IN` as they were, and every byte outside the frame's span as before.
`PayloadInvalid` is not among them (43_command_fsm.md section 3, derived by the spec; 20_memory.md section 2; the spec's own
choices D10, D12 and D23). -/
def Obligations.WriteStepErrorsAreReported : Prop :=
  ∀ s u : State, BlockMoves s u → u.fsm = .write →
    (1984 < u.cursor.toNat →
      step s = .next { u with
        out := u.out ++ [.errorMsg .protocolViolation .append u.cursor.toNat]
        fsm := .userInput
        result := .raised .protocolViolation u.cursor.toNat }) ∧
    (u.cursor.toNat ≤ 1984 → ChannelThen u 0 .fail →
      ∃ t, step s = .next t ∧ t.out = u.out ++ [.errorMsg .channelFailure .append u.cursor.toNat] ∧
        t.fsm = .userInput ∧ t.cursor = u.cursor ∧ t.pending = u.pending ∧ t.inp = u.inp ∧
        (Memory.wf u.med = true → Memory.wf t.med = true ∧
          ∀ a, (a < u.cursor.toNat ∨ u.cursor.toNat + (frameOf (Sys2Proof.Claims.tagged u)).length ≤ a) →
            Memory.read t.med a = Memory.read u.med a))

/-- The `Erase` step with an answering channel (R130): every slot is invalidated, the cursor is 0, nothing is emitted, and the
block is in `UserInput`. -/
def Obligations.EraseStepReturnsToUserInput : Prop :=
  ∀ s u : State, BlockMoves s u → u.fsm = .erase → Memory.wf u.med = true → ChannelOk u 32 →
    ∃ t, step s = .next t ∧ t.fsm = .userInput ∧ t.cursor = 0 ∧ t.out = u.out ∧ t.inp = u.inp ∧
      t.pending = u.pending ∧ (∀ i, i < 32 → entryAt t.params t.med i = none) ∧
      ∀ a, Memory.read t.med a = if a < 2048 ∧ a % 64 = 0 then 0x00 else Memory.read u.med a

/-- The `Erase` step (R130): it runs ERASEALL and then goes to `UserInput`, and a successful erase emits nothing. If a write of
ERASEALL fails, the step emits that `ChannelFailure` alone, goes to `UserInput`, and keeps the cursor. -/
def Obligations.EraseStepRunsEraseall : Prop :=
  ∀ s u : State, BlockMoves s u → u.fsm = .erase →
    (ChannelOk u 32 →
      ∃ v, exec .eraseall u = .next v ∧ v.result = .ok ∧ step s = .next { v with fsm := .userInput } ∧ v.out = u.out) ∧
    ∀ k, k < 32 → ChannelThen u k .fail →
      ∃ t, step s = .next t ∧ t.out = u.out ++ [.errorMsg .channelFailure .eraseall (k * 64)] ∧ t.fsm = .userInput ∧
        t.cursor = u.cursor

/-- The `Read` step: each leading entry is reported in order, then the closing message as `READ_END_REPORT` asks, or the channel
failure and no closing message; cursor and Medium stay (43_command_fsm.md section 3; the spec's own choices D19 and D34). -/
def Obligations.ReadStepReportsThenCloses : Prop :=
  ∀ (s u : State) (ps : List (List Byte)), BlockMoves s u → u.fsm = .read → LeadingEntries u.params u.med ps →
    (ps.length ≤ 32 → (ps.length < 32 → entryAt u.params u.med ps.length = none) →
      ChannelOk u (min (ps.length + 1) 32) →
      ∃ t, step s = .next t ∧ t.fsm = .userInput ∧ t.cursor = u.cursor ∧ t.med = u.med ∧ t.inp = u.inp ∧
        t.pending = u.pending ∧
        t.out = u.out ++ (entriesOf ps).map Entry.report ++
          (match u.params.readEnd with
          | .always => [.noEntriesMsg]
          | .onInvalidSlot => if ps.length < 32 then [.noEntriesMsg] else []
          | .onlyIfNone => if ps = [] then [.noEntriesMsg] else [])) ∧
    (ps.length < 32 → ChannelThen u ps.length .fail →
      ∃ t, step s = .next t ∧ t.fsm = .userInput ∧ t.cursor = u.cursor ∧ t.med = u.med ∧ t.inp = u.inp ∧
        t.pending = u.pending ∧
        t.out = u.out ++ (entriesOf ps).map Entry.report ++
          [.errorMsg .channelFailure .readall (ps.length * 64)])

/-- Boot on a log with room: from `BootScan`, two steps of the block write the boot entry into the first invalid slot, move the
cursor behind it, report `Boot.`, leave the verdict on every other slot as it was, and end in `UserInput`
(70_reset_and_hazards.md section 1, path 1, derived by the spec). -/
def Obligations.BootWritesABootEntry : Prop :=
  ∀ (s : State) (ps : List (List Byte)), s.events = [] → s.fsm = .bootScan → Memory.wf s.med = true → ps.length < 32 →
    LeadingEntries s.params s.med ps → entryAt s.params s.med ps.length = none → ChannelOk s (ps.length + 2) →
    ∃ t, Host.Core.run Sys2Proof.core 2 s = .next t ∧ t.fsm = .userInput ∧ t.cursor = slotOffset (ps.length + 1) ∧
      t.out = s.out ++ [.bootMsg] ∧ entryAt t.params t.med ps.length = some [0x42, 0x6F, 0x6F, 0x74] ∧
      ∀ i, i < 32 → i ≠ ps.length → entryAt t.params t.med i = entryAt s.params s.med i

/-- Boot on a full log: from `BootScan`, two steps of the block erase every slot, leave the cursor at 0, report nothing, write no
boot entry, and end in `UserInput` (70_reset_and_hazards.md section 1, path 2, derived by the spec). -/
def Obligations.BootOnAFullLogErasesIt : Prop :=
  ∀ (s : State) (ps : List (List Byte)), s.events = [] → s.fsm = .bootScan → Memory.wf s.med = true → ps.length = 32 →
    LeadingEntries s.params s.med ps → ChannelOk s 64 →
    ∃ t, Host.Core.run Sys2Proof.core 2 s = .next t ∧ t.fsm = .userInput ∧ t.cursor = 0 ∧ t.out = s.out ∧
      ∀ i, i < 32 → entryAt t.params t.med i = none

/-- The transitions are those of the closed table: no other, none into `BootScan` except by a reset that strikes at one of the
operation's transactions (the first of a `Write`, one of the 32 of the others) behind successful ones, none out of `UserInput`
without a line (43_command_fsm.md section 5, derived by the spec; 70_reset_and_hazards.md section 1; D24 is the spec's own
choice). How the model takes such a reset is notes/assumptions/20.md. -/
def Obligations.TransitionsAreThoseOfTheTable : Prop :=
  ∀ s u t : State, BlockMoves s u → step s = .next t →
    (t.fsm = .bootScan ∧ u.fsm ≠ .userInput ∧ ResetStrikes (if u.fsm = .write then 1 else 32) u ∧ t.cursor = 0 ∧
      t.inp = [] ∧ t.out = []) ∨
    (u.fsm = .bootScan ∧ (t.fsm = .erase ∨ t.fsm = .write ∨ t.fsm = .userInput)) ∨
    (u.fsm = .erase ∧ t.fsm = .userInput) ∨
    (u.fsm = .write ∧ t.fsm = .userInput) ∨
    (u.fsm = .read ∧ t.fsm = .userInput) ∨
    (u.fsm = .userInput ∧ t.fsm ≠ .bootScan ∧ (Config.newline ∉ u.inp → t = u) ∧
      (t.fsm ≠ .userInput → ∃ line rest, u.inp = line ++ Config.newline :: rest ∧
        ((t.fsm = .erase ∧ line = Config.eraseWord) ∨ (t.fsm = .write ∧ line = Config.writeWord) ∨
          (t.fsm = .read ∧ line = Config.readWord))))

/-- Every finite input is worked off: with no event waiting and no reset striking, the block reaches `UserInput` with no complete
line left, within two steps for each byte of `IN` and two more, each of at most 32 transactions (43_command_fsm.md section 5,
20_memory.md section 7, derived by the spec; that waiting is a step is the model's choice, notes/assumptions/15.md). -/
def Obligations.EveryFiniteInputIsWorkedOff : Prop :=
  ∀ s : State, s.events = [] →
    (∀ j, j < 32 * (2 * s.inp.length + 2) → answerAt s j = .ok ∨ answerAt s j = .fail) →
    ∃ t, Host.Core.run Sys2Proof.core (2 * s.inp.length + 2) s = .next t ∧ t.fsm = .userInput ∧
      Config.newline ∉ t.inp

/-! ### Errors -/

/-- Taking an error (60_exceptions.md section 4): an operation that ends by an error leaves the block in `UserInput` with the
cursor, the tag and `IN` it had before, its one error report comes last, after nothing but the reports of the entries a READALL
of the `Read` state has delivered, and the kind is never `DecodeInvalid`. That an operation run alone takes its error so is the
model's choice, notes/assumptions/19.md; that READALL reports in the `Read` state alone, notes/assumptions/29.md. -/
def Obligations.ErrorReportsOnceAndKeepsTheCursor : Prop :=
  ∀ (i : Instr) (op : OpSel) (s t : State) (kind : ErrKind) (info : Nat), opselOf i = some op →
    exec i s = .next t → t.result = .raised kind info →
    t.fsm = .userInput ∧ t.cursor = s.cursor ∧ t.pending = s.pending ∧ t.inp = s.inp ∧ kind ≠ .decodeInvalid ∧
      t.out = s.out ++ (if i = .readall ∧ s.fsm = .read then t.yielded.map Entry.report else []) ++
        [.errorMsg kind op info]

/-! ### Invariants of the whole machine -/

/-- The state after reset meets the invariant; the Medium's and the working storage's values there are the model's choice,
notes/assumptions/10.md and 11.md. -/
def Obligations.ResetStateMeetsTheInvariant : Prop := State.reset.Inv

/-- Every step keeps the invariant: canonical Medium, legal cursor, whole SLOTBUF, only aligned in-range transactions of the three
sizes, no `DecodeInvalid` report, and only reports of entries a slot can hold (10_state.md sections 2 and 3, 20_memory.md
sections 4 and 5, 60_exceptions.md section 1). -/
def Obligations.EveryStepKeepsTheInvariant : Prop :=
  ∀ s t : State, s.Inv → step s = .next t → t.Inv

/-- Which instructions write what: only APPEND and ERASEALL change the Medium, only RESET (or a reset that strikes at one of
READALL's reads behind successful ones), BOOTSCAN, APPEND and ERASEALL the cursor, and none the parameters or the waiting events (10_state.md sections 2 and 5, derived by the
spec). -/
def Obligations.OnlyTheNamedWritersWrite : Prop :=
  ∀ (i : Instr) (s t : State), exec i s = .next t →
    (i ≠ .eraseall → (∀ p, i ≠ .append p) → t.med = s.med) ∧
    (i ≠ .reset → i ≠ .bootscan → i ≠ .eraseall → (∀ p, i ≠ .append p) →
      t.cursor = s.cursor ∨ (i = .readall ∧ ResetStrikes 32 s ∧ t.fsm = .bootScan ∧ t.cursor = 0)) ∧
    t.params = s.params ∧ t.events = s.events

/-- The report stream only grows, until a reset empties it (10_state.md sections 4 and 7). -/
def Obligations.ReportsOnlyGrowUntilReset : Prop :=
  ∀ s t : State, step s = .next t → s.out <+: t.out ∨ (t.fsm = .bootScan ∧ t.out = [] ∧ t.inp = [] ∧ t.cursor = 0)

/-- Nothing the block does depends on what `OUT` holds, nor on the model's trace: of two states that differ only there, both step
to states that differ only there, with the same transactions added and the same reports added, or both with `OUT` emptied by a
reset (10_state.md section 4; that the trace is never read is the model's choice, notes/assumptions/23.md). -/
def Obligations.ReportsAndTraceAreNeverRead : Prop :=
  ∀ s s' t : State, s.unobserved = s'.unobserved → step s = .next t →
    ∃ t', step s' = .next t' ∧ t.unobserved = t'.unobserved ∧
      (∃ txns : List Txn, t.trace = s.trace ++ txns ∧ t'.trace = s'.trace ++ txns) ∧
      ((∃ reports : List Report, t.out = s.out ++ reports ∧ t'.out = s'.out ++ reports) ∨
        (t.fsm = .bootScan ∧ t.out = [] ∧ t'.out = []))

/-- Read after write on the Medium: the bytes stored are read back, and every byte outside the stored span reads as before; the
canonical form is kept (20_memory.md sections 2 and 6; D27 is the spec's own choice). -/
def Obligations.MediumReadAfterWrite : Prop :=
  ∀ (m : Memory) (a : Nat) (v : List Byte), Memory.wf m = true → a + v.length ≤ 2048 →
    Memory.wf (Memory.writeBytes m a v) = true ∧ Memory.bytes (Memory.writeBytes m a v) a v.length = v ∧
      ∀ b, (b < a ∨ a + v.length ≤ b) → Memory.read (Memory.writeBytes m a v) b = Memory.read m b

/-- Two Mediums in canonical form that read alike at every address are the same data (10_state.md section 5; the form is the
model's choice, notes/assumptions/11.md). -/
def Obligations.MediumFormIsCanonical : Prop :=
  ∀ m m' : Memory, Memory.wf m = true → Memory.wf m' = true → (∀ a, Memory.read m a = Memory.read m' a) → m = m'

/-! ### Report texts -/

/-- The value of one hexadecimal digit `0-9A-F`. -/
def Sys2Proof.Claims.digitValue (b : Byte) : Nat := if b.toNat < 58 then b.toNat - 48 else b.toNat - 55

/-- An offset's text is its base-16 numeral with digits `0-9A-F`, without leading zeros and with at least one digit
(30_encoding.md section 4; the spec's own choice D20, notes/assumptions/28.md): only offset 0 begins with the digit 0, and its
text is that one digit. The digits' codes are general knowledge, notes/assumptions/24.md. -/
def Obligations.HexOffsetIsTheNumeral : Prop :=
  ∀ off : Offset,
    (hexOffset off).foldl (fun n b => n * 16 + Sys2Proof.Claims.digitValue b) 0 = off.toNat ∧
    (∀ b ∈ hexOffset off, (0x30 ≤ b.toNat ∧ b.toNat ≤ 0x39) ∨ (0x41 ≤ b.toNat ∧ b.toNat ≤ 0x46)) ∧
    hexOffset off ≠ [] ∧ ((hexOffset off).head? = some 0x30 → off = 0 ∧ hexOffset off = [0x30])

/-- The bodies of reports (30_encoding.md section 4). The words `Boot.`, `No valid log entries found!`, `Invalid input!` and the
two literals around an entry's payload are the source's. The form of the offset is the spec's own choice D20
(notes/assumptions/28.md), the echo D30, that a diagnostic is some non-empty text D21 (notes/assumptions/6.md), and every byte
value is general knowledge, PRESUMED in notes/assumptions/24.md. -/
def Obligations.ReportBodies : Prop :=
  Report.body .bootMsg = [0x42, 0x6F, 0x6F, 0x74, 0x2E] ∧
  Report.body .noEntriesMsg =
    [0x4E, 0x6F, 0x20, 0x76, 0x61, 0x6C, 0x69, 0x64, 0x20, 0x6C, 0x6F, 0x67, 0x20, 0x65, 0x6E, 0x74, 0x72, 0x69, 0x65,
      0x73, 0x20, 0x66, 0x6F, 0x75, 0x6E, 0x64, 0x21] ∧
  Report.body .invalidInputMsg =
    [0x49, 0x6E, 0x76, 0x61, 0x6C, 0x69, 0x64, 0x20, 0x69, 0x6E, 0x70, 0x75, 0x74, 0x21] ∧
  (∀ (payload : List Byte) (off : Offset), Report.body (.entryMsg payload off) =
    [0x4C, 0x6F, 0x67, 0x20, 0x65, 0x6E, 0x74, 0x72, 0x79, 0x3A, 0x20] ++ payload ++
      [0x2E, 0x20, 0x4D, 0x65, 0x6D, 0x6F, 0x72, 0x79, 0x20, 0x61, 0x64, 0x64, 0x72, 0x65, 0x73, 0x73, 0x3A, 0x20, 0x30,
        0x58] ++ hexOffset off) ∧
  Report.body (.entryMsg [0x41] 0x40) =
    [0x4C, 0x6F, 0x67, 0x20, 0x65, 0x6E, 0x74, 0x72, 0x79, 0x3A, 0x20, 0x41, 0x2E, 0x20, 0x4D, 0x65, 0x6D, 0x6F, 0x72,
      0x79, 0x20, 0x61, 0x64, 0x64, 0x72, 0x65, 0x73, 0x73, 0x3A, 0x20, 0x30, 0x58, 0x34, 0x30] ∧
  (∀ b, Report.body (.echo b) = [b]) ∧ ∀ k op info, Report.body (.errorMsg k op info) ≠ []
end

