-- ==== Sys2Proof/Laws/Memory.lean ====
section
/-! SUPPORT. The Medium: what a byte reads as after a write, and that every write keeps the canonical form. -/

namespace Sys2Proof.Machine

theorem Memory.wfFrom_mono {lo lo' : Nat} (h : lo' ≤ lo) :
    ∀ {m : Memory}, Memory.wfFrom lo m = true → Memory.wfFrom lo' m = true
  | [], _ => rfl
  | (k, v) :: rest, hm => by
    simp only [Memory.wfFrom, Bool.and_eq_true, decide_eq_true_eq] at hm ⊢
    exact ⟨⟨⟨by omega, hm.1.1.2⟩, hm.1.2⟩, hm.2⟩

theorem Memory.read_of_lt {lo a : Nat} (h : a < lo) :
    ∀ {m : Memory}, Memory.wfFrom lo m = true → Memory.read m a = Memory.blank
  | [], _ => rfl
  | (k, v) :: rest, hm => by
    simp only [Memory.wfFrom, Bool.and_eq_true, decide_eq_true_eq] at hm
    have hk : k ≠ a := by omega
    simp only [Memory.read, hk, if_false]
    exact Memory.read_of_lt (by omega) hm.2

theorem Memory.read_cell_self {a : Nat} {v : Byte} {rest : Memory} (h : Memory.wfFrom (a + 1) rest = true) :
    Memory.read (Memory.cell a v rest) a = v := by
  unfold Memory.cell
  split
  · rename_i hv
    rw [Memory.read_of_lt (Nat.lt_succ_self a) h, hv]
  · simp [Memory.read]

theorem Memory.read_cell_of_ne {a b : Nat} {v : Byte} {rest : Memory} (h : b ≠ a) :
    Memory.read (Memory.cell a v rest) b = Memory.read rest b := by
  unfold Memory.cell
  split
  · rfl
  · simp [Memory.read, Ne.symm h]

theorem Memory.wfFrom_cell {lo a : Nat} {v : Byte} {rest : Memory} (hlo : lo ≤ a) (ha : a < Config.capacity)
    (h : Memory.wfFrom (a + 1) rest = true) : Memory.wfFrom lo (Memory.cell a v rest) = true := by
  unfold Memory.cell
  split
  · exact Memory.wfFrom_mono (by omega) h
  · rename_i hv
    simp [Memory.wfFrom, hlo, ha, hv, h]

theorem Memory.wfFrom_write {a : Nat} {v : Byte} (ha : a < Config.capacity) :
    ∀ {lo : Nat} {m : Memory}, lo ≤ a → Memory.wfFrom lo m = true → Memory.wfFrom lo (Memory.write m a v) = true
  | lo, [], hlo, _ => Memory.wfFrom_cell hlo ha rfl
  | lo, (k, w) :: rest, hlo, hm => by
    simp only [Memory.wfFrom, Bool.and_eq_true, decide_eq_true_eq] at hm
    obtain ⟨⟨⟨h1, h2⟩, h3⟩, h4⟩ := hm
    simp only [Memory.write]
    split
    · exact Memory.wfFrom_cell hlo ha (by simp [Memory.wfFrom, h2, h3, h4]; omega)
    · split
      · rename_i hk
        subst hk
        exact Memory.wfFrom_cell hlo ha h4
      · have := Memory.wfFrom_write (v := v) ha (lo := k + 1) (m := rest) (by omega) h4
        simp [Memory.wfFrom, h1, h2, h3, this]

/-- A read after a write: the byte written at its address, the old byte anywhere else. -/
theorem Memory.read_writeFrom {a : Nat} {v : Byte} (b : Nat) :
    ∀ {lo : Nat} {m : Memory}, Memory.wfFrom lo m = true →
      Memory.read (Memory.write m a v) b = if b = a then v else Memory.read m b
  | _, [], _ => by
    by_cases h : b = a
    · subst h; simp [Memory.write, Memory.read_cell_self (rest := []) rfl]
    · simp [Memory.write, Memory.read_cell_of_ne h, h]
  | _, (k, w) :: rest, hm => by
    simp only [Memory.wfFrom, Bool.and_eq_true, decide_eq_true_eq] at hm
    obtain ⟨⟨⟨h1, h2⟩, h3⟩, h4⟩ := hm
    simp only [Memory.write]
    split
    · rename_i hlt
      by_cases h : b = a
      · subst h
        rw [Memory.read_cell_self (by simp [Memory.wfFrom, h2, h3, h4]; omega), if_pos rfl]
      · rw [Memory.read_cell_of_ne h, if_neg h]
    · split
      · rename_i hk
        subst hk
        by_cases h : b = a
        · subst h; rw [Memory.read_cell_self h4, if_pos rfl]
        · rw [Memory.read_cell_of_ne h, if_neg h]; simp [Memory.read, Ne.symm h]
      · rename_i hlt hne
        simp only [Memory.read]
        by_cases hk : k = b
        · subst hk; simp [Ne.symm hne]
        · simp only [hk, if_false]; exact Memory.read_writeFrom b h4

theorem Memory.read_write {m : Memory} {a : Nat} {v : Byte} (h : Memory.wf m = true) (b : Nat) :
    Memory.read (Memory.write m a v) b = if b = a then v else Memory.read m b :=
  Memory.read_writeFrom b h

theorem Memory.wf_write {m : Memory} {a : Nat} {v : Byte} (h : Memory.wf m = true) (ha : a < Config.capacity) :
    Memory.wf (Memory.write m a v) = true :=
  Memory.wfFrom_write ha (Nat.zero_le a) h

/-- Every operation that stores keeps the canonical form. -/
theorem Memory.wf_writeBytes : ∀ {m : Memory} {a : Nat} {vs : List Byte}, Memory.wf m = true →
    a + vs.length ≤ Config.capacity → Memory.wf (Memory.writeBytes m a vs) = true
  | _, _, [], h, _ => h
  | m, a, v :: vs, h, ha => by
    simp only [List.length_cons] at ha
    exact Memory.wf_writeBytes (m := Memory.write m a v) (a := a + 1) (Memory.wf_write h (by omega)) (by omega)

/-- A byte outside the stored span reads as before. -/
theorem Memory.read_writeBytes_outside : ∀ {m : Memory} {a : Nat} {vs : List Byte} {b : Nat}, Memory.wf m = true →
    a + vs.length ≤ Config.capacity → (b < a ∨ a + vs.length ≤ b) →
    Memory.read (Memory.writeBytes m a vs) b = Memory.read m b
  | _, _, [], _, _, _, _ => rfl
  | m, a, v :: vs, b, h, ha, hb => by
    simp only [List.length_cons] at ha hb
    have hw := Memory.wf_write (v := v) h (show a < Config.capacity by omega)
    show Memory.read (Memory.writeBytes (Memory.write m a v) (a + 1) vs) b = _
    rw [Memory.read_writeBytes_outside hw (by omega) (by omega), Memory.read_write h, if_neg (by omega)]

/-- Byte `k` of the stored span reads as byte `k` of what was stored. -/
theorem Memory.read_writeBytes_inside : ∀ {m : Memory} {a : Nat} {vs : List Byte} {k : Nat}, Memory.wf m = true →
    a + vs.length ≤ Config.capacity → (hk : k < vs.length) →
    Memory.read (Memory.writeBytes m a vs) (a + k) = vs[k]
  | m, a, v :: vs, k, h, ha, hk => by
    simp only [List.length_cons] at ha hk
    have hw := Memory.wf_write (v := v) h (show a < Config.capacity by omega)
    show Memory.read (Memory.writeBytes (Memory.write m a v) (a + 1) vs) (a + k) = _
    cases k with
    | zero => rw [Memory.read_writeBytes_outside hw (by omega) (by omega), Memory.read_write h]; simp
    | succ k =>
      have := Memory.read_writeBytes_inside (a := a + 1) (vs := vs) (k := k) hw (by omega) (by omega)
      rw [show a + (k + 1) = a + 1 + k by omega, this]; simp

@[simp] theorem Memory.length_bytes (m : Memory) (a n : Nat) : (Memory.bytes m a n).length = n := by
  simp [Memory.bytes]

theorem Memory.getElem_bytes {m : Memory} {a n k : Nat} (h : k < (Memory.bytes m a n).length) :
    (Memory.bytes m a n)[k] = Memory.read m (a + k) := by
  simp [Memory.bytes]

/-- The bytes of a span depend on the Medium only through reads of that span. -/
theorem Memory.bytes_congr {m m' : Memory} {a n : Nat}
    (h : ∀ b, a ≤ b → b < a + n → Memory.read m b = Memory.read m' b) :
    Memory.bytes m a n = Memory.bytes m' a n := by
  apply List.ext_getElem (by simp)
  intro k h1 h2
  rw [Memory.getElem_bytes, Memory.getElem_bytes]
  simp only [Memory.length_bytes] at h1
  exact h _ (by omega) (by omega)

/-- The stored bytes are read back, followed by the old bytes of the span. -/
theorem Memory.bytes_writeBytes_self {m : Memory} {a n : Nat} {vs : List Byte} (h : Memory.wf m = true)
    (ha : a + vs.length ≤ Config.capacity) (hn : vs.length ≤ n) :
    Memory.bytes (Memory.writeBytes m a vs) a n = vs ++ (Memory.bytes m a n).drop vs.length := by
  apply List.ext_getElem (by simp; omega)
  intro k h1 h2
  rw [Memory.getElem_bytes]
  by_cases hk : k < vs.length
  · rw [Memory.read_writeBytes_inside h ha hk, List.getElem_append_left hk]
  · rw [Memory.read_writeBytes_outside h ha (by omega), List.getElem_append_right (by omega), List.getElem_drop,
      Memory.getElem_bytes]
    congr 1; omega

theorem length_tornBytes (tick a n : Nat) : (tornBytes tick a n).length = n := by simp [tornBytes]

end Sys2Proof.Machine
end

