-- ==== Sys2Proof/Laws/State.lean ====
section
/-! SUPPORT. One lemma per field for each named update of the state, all true by definition. -/

namespace Sys2Proof.Machine

/-! `State.emit` -/

@[simp] theorem emit_cursor (r : Report) (s : State) :
    (State.emit r s).cursor = s.cursor := rfl
@[simp] theorem emit_fsm (r : Report) (s : State) :
    (State.emit r s).fsm = s.fsm := rfl
@[simp] theorem emit_pending (r : Report) (s : State) :
    (State.emit r s).pending = s.pending := rfl
@[simp] theorem emit_inp (r : Report) (s : State) :
    (State.emit r s).inp = s.inp := rfl
@[simp] theorem emit_out (r : Report) (s : State) :
    (State.emit r s).out = s.out ++ [r] := rfl
@[simp] theorem emit_med (r : Report) (s : State) :
    (State.emit r s).med = s.med := rfl
@[simp] theorem emit_crcAcc (r : Report) (s : State) :
    (State.emit r s).crcAcc = s.crcAcc := rfl
@[simp] theorem emit_slotbuf (r : Report) (s : State) :
    (State.emit r s).slotbuf = s.slotbuf := rfl
@[simp] theorem emit_scanOff (r : Report) (s : State) :
    (State.emit r s).scanOff = s.scanOff := rfl
@[simp] theorem emit_params (r : Report) (s : State) :
    (State.emit r s).params = s.params := rfl
@[simp] theorem emit_events (r : Report) (s : State) :
    (State.emit r s).events = s.events := rfl
@[simp] theorem emit_answers (r : Report) (s : State) :
    (State.emit r s).answers = s.answers := rfl
@[simp] theorem emit_tick (r : Report) (s : State) :
    (State.emit r s).tick = s.tick := rfl
@[simp] theorem emit_trace (r : Report) (s : State) :
    (State.emit r s).trace = s.trace := rfl
@[simp] theorem emit_result (r : Report) (s : State) :
    (State.emit r s).result = s.result := rfl
@[simp] theorem emit_yielded (r : Report) (s : State) :
    (State.emit r s).yielded = s.yielded := rfl

/-! `State.record` -/

@[simp] theorem record_cursor (t : Txn) (s : State) :
    (State.record t s).cursor = s.cursor := rfl
@[simp] theorem record_fsm (t : Txn) (s : State) :
    (State.record t s).fsm = s.fsm := rfl
@[simp] theorem record_pending (t : Txn) (s : State) :
    (State.record t s).pending = s.pending := rfl
@[simp] theorem record_inp (t : Txn) (s : State) :
    (State.record t s).inp = s.inp := rfl
@[simp] theorem record_out (t : Txn) (s : State) :
    (State.record t s).out = s.out := rfl
@[simp] theorem record_med (t : Txn) (s : State) :
    (State.record t s).med = s.med := rfl
@[simp] theorem record_crcAcc (t : Txn) (s : State) :
    (State.record t s).crcAcc = s.crcAcc := rfl
@[simp] theorem record_slotbuf (t : Txn) (s : State) :
    (State.record t s).slotbuf = s.slotbuf := rfl
@[simp] theorem record_scanOff (t : Txn) (s : State) :
    (State.record t s).scanOff = s.scanOff := rfl
@[simp] theorem record_params (t : Txn) (s : State) :
    (State.record t s).params = s.params := rfl
@[simp] theorem record_events (t : Txn) (s : State) :
    (State.record t s).events = s.events := rfl
@[simp] theorem record_answers (t : Txn) (s : State) :
    (State.record t s).answers = s.answers := rfl
@[simp] theorem record_tick (t : Txn) (s : State) :
    (State.record t s).tick = s.tick := rfl
@[simp] theorem record_trace (t : Txn) (s : State) :
    (State.record t s).trace = s.trace ++ [t] := rfl
@[simp] theorem record_result (t : Txn) (s : State) :
    (State.record t s).result = s.result := rfl
@[simp] theorem record_yielded (t : Txn) (s : State) :
    (State.record t s).yielded = s.yielded := rfl

/-! `State.asked` -/

@[simp] theorem asked_cursor (s : State) :
    (State.asked s).cursor = s.cursor := rfl
@[simp] theorem asked_fsm (s : State) :
    (State.asked s).fsm = s.fsm := rfl
@[simp] theorem asked_pending (s : State) :
    (State.asked s).pending = s.pending := rfl
@[simp] theorem asked_inp (s : State) :
    (State.asked s).inp = s.inp := rfl
@[simp] theorem asked_out (s : State) :
    (State.asked s).out = s.out := rfl
@[simp] theorem asked_med (s : State) :
    (State.asked s).med = s.med := rfl
@[simp] theorem asked_crcAcc (s : State) :
    (State.asked s).crcAcc = s.crcAcc := rfl
@[simp] theorem asked_slotbuf (s : State) :
    (State.asked s).slotbuf = s.slotbuf := rfl
@[simp] theorem asked_scanOff (s : State) :
    (State.asked s).scanOff = s.scanOff := rfl
@[simp] theorem asked_params (s : State) :
    (State.asked s).params = s.params := rfl
@[simp] theorem asked_events (s : State) :
    (State.asked s).events = s.events := rfl
@[simp] theorem asked_answers (s : State) :
    (State.asked s).answers = s.answers.tail := rfl
@[simp] theorem asked_tick (s : State) :
    (State.asked s).tick = s.tick + 1 := rfl
@[simp] theorem asked_trace (s : State) :
    (State.asked s).trace = s.trace := rfl
@[simp] theorem asked_result (s : State) :
    (State.asked s).result = s.result := rfl
@[simp] theorem asked_yielded (s : State) :
    (State.asked s).yielded = s.yielded := rfl

/-! `State.stored` -/

@[simp] theorem stored_cursor (addr : Offset) (v : List Byte) (s : State) :
    (State.stored addr v s).cursor = s.cursor := rfl
@[simp] theorem stored_fsm (addr : Offset) (v : List Byte) (s : State) :
    (State.stored addr v s).fsm = s.fsm := rfl
@[simp] theorem stored_pending (addr : Offset) (v : List Byte) (s : State) :
    (State.stored addr v s).pending = s.pending := rfl
@[simp] theorem stored_inp (addr : Offset) (v : List Byte) (s : State) :
    (State.stored addr v s).inp = s.inp := rfl
@[simp] theorem stored_out (addr : Offset) (v : List Byte) (s : State) :
    (State.stored addr v s).out = s.out := rfl
@[simp] theorem stored_med (addr : Offset) (v : List Byte) (s : State) :
    (State.stored addr v s).med = Memory.writeBytes s.med addr.toNat v := rfl
@[simp] theorem stored_crcAcc (addr : Offset) (v : List Byte) (s : State) :
    (State.stored addr v s).crcAcc = s.crcAcc := rfl
@[simp] theorem stored_slotbuf (addr : Offset) (v : List Byte) (s : State) :
    (State.stored addr v s).slotbuf = s.slotbuf := rfl
@[simp] theorem stored_scanOff (addr : Offset) (v : List Byte) (s : State) :
    (State.stored addr v s).scanOff = s.scanOff := rfl
@[simp] theorem stored_params (addr : Offset) (v : List Byte) (s : State) :
    (State.stored addr v s).params = s.params := rfl
@[simp] theorem stored_events (addr : Offset) (v : List Byte) (s : State) :
    (State.stored addr v s).events = s.events := rfl
@[simp] theorem stored_answers (addr : Offset) (v : List Byte) (s : State) :
    (State.stored addr v s).answers = s.answers := rfl
@[simp] theorem stored_tick (addr : Offset) (v : List Byte) (s : State) :
    (State.stored addr v s).tick = s.tick := rfl
@[simp] theorem stored_trace (addr : Offset) (v : List Byte) (s : State) :
    (State.stored addr v s).trace = s.trace := rfl
@[simp] theorem stored_result (addr : Offset) (v : List Byte) (s : State) :
    (State.stored addr v s).result = s.result := rfl
@[simp] theorem stored_yielded (addr : Offset) (v : List Byte) (s : State) :
    (State.stored addr v s).yielded = s.yielded := rfl

/-! `State.torn` -/

@[simp] theorem torn_cursor (addr : Offset) (n : Nat) (s : State) :
    (State.torn addr n s).cursor = s.cursor := rfl
@[simp] theorem torn_fsm (addr : Offset) (n : Nat) (s : State) :
    (State.torn addr n s).fsm = s.fsm := rfl
@[simp] theorem torn_pending (addr : Offset) (n : Nat) (s : State) :
    (State.torn addr n s).pending = s.pending := rfl
@[simp] theorem torn_inp (addr : Offset) (n : Nat) (s : State) :
    (State.torn addr n s).inp = s.inp := rfl
@[simp] theorem torn_out (addr : Offset) (n : Nat) (s : State) :
    (State.torn addr n s).out = s.out := rfl
@[simp] theorem torn_med (addr : Offset) (n : Nat) (s : State) :
    (State.torn addr n s).med = Memory.writeBytes s.med addr.toNat (tornBytes s.tick addr.toNat n) := rfl
@[simp] theorem torn_crcAcc (addr : Offset) (n : Nat) (s : State) :
    (State.torn addr n s).crcAcc = s.crcAcc := rfl
@[simp] theorem torn_slotbuf (addr : Offset) (n : Nat) (s : State) :
    (State.torn addr n s).slotbuf = s.slotbuf := rfl
@[simp] theorem torn_scanOff (addr : Offset) (n : Nat) (s : State) :
    (State.torn addr n s).scanOff = s.scanOff := rfl
@[simp] theorem torn_params (addr : Offset) (n : Nat) (s : State) :
    (State.torn addr n s).params = s.params := rfl
@[simp] theorem torn_events (addr : Offset) (n : Nat) (s : State) :
    (State.torn addr n s).events = s.events := rfl
@[simp] theorem torn_answers (addr : Offset) (n : Nat) (s : State) :
    (State.torn addr n s).answers = s.answers := rfl
@[simp] theorem torn_tick (addr : Offset) (n : Nat) (s : State) :
    (State.torn addr n s).tick = s.tick := rfl
@[simp] theorem torn_trace (addr : Offset) (n : Nat) (s : State) :
    (State.torn addr n s).trace = s.trace := rfl
@[simp] theorem torn_result (addr : Offset) (n : Nat) (s : State) :
    (State.torn addr n s).result = s.result := rfl
@[simp] theorem torn_yielded (addr : Offset) (n : Nat) (s : State) :
    (State.torn addr n s).yielded = s.yielded := rfl

/-! `State.raise` -/

@[simp] theorem raise_cursor (op : OpSel) (kind : ErrKind) (info : Nat) (s : State) :
    (State.raise op kind info s).cursor = s.cursor := rfl
@[simp] theorem raise_fsm (op : OpSel) (kind : ErrKind) (info : Nat) (s : State) :
    (State.raise op kind info s).fsm = .userInput := rfl
@[simp] theorem raise_pending (op : OpSel) (kind : ErrKind) (info : Nat) (s : State) :
    (State.raise op kind info s).pending = s.pending := rfl
@[simp] theorem raise_inp (op : OpSel) (kind : ErrKind) (info : Nat) (s : State) :
    (State.raise op kind info s).inp = s.inp := rfl
@[simp] theorem raise_out (op : OpSel) (kind : ErrKind) (info : Nat) (s : State) :
    (State.raise op kind info s).out = s.out ++ [.errorMsg kind op info] := rfl
@[simp] theorem raise_med (op : OpSel) (kind : ErrKind) (info : Nat) (s : State) :
    (State.raise op kind info s).med = s.med := rfl
@[simp] theorem raise_crcAcc (op : OpSel) (kind : ErrKind) (info : Nat) (s : State) :
    (State.raise op kind info s).crcAcc = s.crcAcc := rfl
@[simp] theorem raise_slotbuf (op : OpSel) (kind : ErrKind) (info : Nat) (s : State) :
    (State.raise op kind info s).slotbuf = s.slotbuf := rfl
@[simp] theorem raise_scanOff (op : OpSel) (kind : ErrKind) (info : Nat) (s : State) :
    (State.raise op kind info s).scanOff = s.scanOff := rfl
@[simp] theorem raise_params (op : OpSel) (kind : ErrKind) (info : Nat) (s : State) :
    (State.raise op kind info s).params = s.params := rfl
@[simp] theorem raise_events (op : OpSel) (kind : ErrKind) (info : Nat) (s : State) :
    (State.raise op kind info s).events = s.events := rfl
@[simp] theorem raise_answers (op : OpSel) (kind : ErrKind) (info : Nat) (s : State) :
    (State.raise op kind info s).answers = s.answers := rfl
@[simp] theorem raise_tick (op : OpSel) (kind : ErrKind) (info : Nat) (s : State) :
    (State.raise op kind info s).tick = s.tick := rfl
@[simp] theorem raise_trace (op : OpSel) (kind : ErrKind) (info : Nat) (s : State) :
    (State.raise op kind info s).trace = s.trace := rfl
@[simp] theorem raise_result (op : OpSel) (kind : ErrKind) (info : Nat) (s : State) :
    (State.raise op kind info s).result = .raised kind info := rfl
@[simp] theorem raise_yielded (op : OpSel) (kind : ErrKind) (info : Nat) (s : State) :
    (State.raise op kind info s).yielded = s.yielded := rfl

/-! `State.resetBlock` -/

@[simp] theorem resetBlock_cursor (s : State) :
    (State.resetBlock s).cursor = 0 := rfl
@[simp] theorem resetBlock_fsm (s : State) :
    (State.resetBlock s).fsm = .bootScan := rfl
@[simp] theorem resetBlock_pending (s : State) :
    (State.resetBlock s).pending = if Config.resetPending s.tick then .bootEntry else .probeEntry := rfl
@[simp] theorem resetBlock_inp (s : State) :
    (State.resetBlock s).inp = [] := rfl
@[simp] theorem resetBlock_out (s : State) :
    (State.resetBlock s).out = [] := rfl
@[simp] theorem resetBlock_med (s : State) :
    (State.resetBlock s).med = s.med := rfl
@[simp] theorem resetBlock_crcAcc (s : State) :
    (State.resetBlock s).crcAcc = Config.resetCrcAcc s.tick := rfl
@[simp] theorem resetBlock_slotbuf (s : State) :
    (State.resetBlock s).slotbuf = (List.range Config.slotSize).map (Config.resetSlotByte s.tick) := rfl
@[simp] theorem resetBlock_scanOff (s : State) :
    (State.resetBlock s).scanOff = Config.resetScanOff s.tick := rfl
@[simp] theorem resetBlock_params (s : State) :
    (State.resetBlock s).params = s.params := rfl
@[simp] theorem resetBlock_events (s : State) :
    (State.resetBlock s).events = s.events := rfl
@[simp] theorem resetBlock_answers (s : State) :
    (State.resetBlock s).answers = s.answers := rfl
@[simp] theorem resetBlock_tick (s : State) :
    (State.resetBlock s).tick = s.tick + 1 := rfl
@[simp] theorem resetBlock_trace (s : State) :
    (State.resetBlock s).trace = s.trace := rfl
@[simp] theorem resetBlock_result (s : State) :
    (State.resetBlock s).result = .nothing := rfl
@[simp] theorem resetBlock_yielded (s : State) :
    (State.resetBlock s).yielded = [] := rfl

/-! `deliver` -/

@[simp] theorem deliver_cursor (p : List Byte) (off : Offset) (s : State) :
    (deliver p off s).cursor = s.cursor := rfl
@[simp] theorem deliver_fsm (p : List Byte) (off : Offset) (s : State) :
    (deliver p off s).fsm = s.fsm := rfl
@[simp] theorem deliver_pending (p : List Byte) (off : Offset) (s : State) :
    (deliver p off s).pending = s.pending := rfl
@[simp] theorem deliver_inp (p : List Byte) (off : Offset) (s : State) :
    (deliver p off s).inp = s.inp := rfl
@[simp] theorem deliver_out (p : List Byte) (off : Offset) (s : State) :
    (deliver p off s).out = if s.fsm = .read then s.out ++ [.entryMsg p off] else s.out := rfl
@[simp] theorem deliver_med (p : List Byte) (off : Offset) (s : State) :
    (deliver p off s).med = s.med := rfl
@[simp] theorem deliver_crcAcc (p : List Byte) (off : Offset) (s : State) :
    (deliver p off s).crcAcc = s.crcAcc := rfl
@[simp] theorem deliver_slotbuf (p : List Byte) (off : Offset) (s : State) :
    (deliver p off s).slotbuf = s.slotbuf := rfl
@[simp] theorem deliver_scanOff (p : List Byte) (off : Offset) (s : State) :
    (deliver p off s).scanOff = s.scanOff := rfl
@[simp] theorem deliver_params (p : List Byte) (off : Offset) (s : State) :
    (deliver p off s).params = s.params := rfl
@[simp] theorem deliver_events (p : List Byte) (off : Offset) (s : State) :
    (deliver p off s).events = s.events := rfl
@[simp] theorem deliver_answers (p : List Byte) (off : Offset) (s : State) :
    (deliver p off s).answers = s.answers := rfl
@[simp] theorem deliver_tick (p : List Byte) (off : Offset) (s : State) :
    (deliver p off s).tick = s.tick := rfl
@[simp] theorem deliver_trace (p : List Byte) (off : Offset) (s : State) :
    (deliver p off s).trace = s.trace := rfl
@[simp] theorem deliver_result (p : List Byte) (off : Offset) (s : State) :
    (deliver p off s).result = s.result := rfl
@[simp] theorem deliver_yielded (p : List Byte) (off : Offset) (s : State) :
    (deliver p off s).yielded = s.yielded ++ [⟨p, off⟩] := rfl

/-! `State.tookLine` -/

@[simp] theorem tookLine_cursor (line rest : List Byte) (s : State) :
    (State.tookLine line rest s).cursor = s.cursor := rfl
@[simp] theorem tookLine_fsm (line rest : List Byte) (s : State) :
    (State.tookLine line rest s).fsm = s.fsm := rfl
@[simp] theorem tookLine_pending (line rest : List Byte) (s : State) :
    (State.tookLine line rest s).pending = s.pending := rfl
@[simp] theorem tookLine_inp (line rest : List Byte) (s : State) :
    (State.tookLine line rest s).inp = rest := rfl
@[simp] theorem tookLine_out (line rest : List Byte) (s : State) :
    (State.tookLine line rest s).out = s.out ++ (line ++ [Config.newline]).map .echo := rfl
@[simp] theorem tookLine_med (line rest : List Byte) (s : State) :
    (State.tookLine line rest s).med = s.med := rfl
@[simp] theorem tookLine_crcAcc (line rest : List Byte) (s : State) :
    (State.tookLine line rest s).crcAcc = s.crcAcc := rfl
@[simp] theorem tookLine_slotbuf (line rest : List Byte) (s : State) :
    (State.tookLine line rest s).slotbuf = s.slotbuf := rfl
@[simp] theorem tookLine_scanOff (line rest : List Byte) (s : State) :
    (State.tookLine line rest s).scanOff = s.scanOff := rfl
@[simp] theorem tookLine_params (line rest : List Byte) (s : State) :
    (State.tookLine line rest s).params = s.params := rfl
@[simp] theorem tookLine_events (line rest : List Byte) (s : State) :
    (State.tookLine line rest s).events = s.events := rfl
@[simp] theorem tookLine_answers (line rest : List Byte) (s : State) :
    (State.tookLine line rest s).answers = s.answers := rfl
@[simp] theorem tookLine_tick (line rest : List Byte) (s : State) :
    (State.tookLine line rest s).tick = s.tick := rfl
@[simp] theorem tookLine_trace (line rest : List Byte) (s : State) :
    (State.tookLine line rest s).trace = s.trace := rfl
@[simp] theorem tookLine_result (line rest : List Byte) (s : State) :
    (State.tookLine line rest s).result = s.result := rfl
@[simp] theorem tookLine_yielded (line rest : List Byte) (s : State) :
    (State.tookLine line rest s).yielded = s.yielded := rfl

end Sys2Proof.Machine
end

