-- ==== Sys2Proof/Laws/Channel.lean ====
section
/-! SUPPORT. The Medium Channel: each primitive's result for each answer, and everything it can do. -/

namespace Sys2Proof.Machine

theorem answerAt_congr {s t : State} (ha : t.answers = s.answers) (ht : t.tick = s.tick) (j : Nat) :
    answerAt t j = answerAt s j := by
  simp [answerAt, ha, ht]

@[simp] theorem answerAt_asked (s : State) (j : Nat) : answerAt s.asked j = answerAt s (j + 1) := by
  unfold answerAt
  cases h : s.answers with
  | nil => simp [h, Nat.add_assoc, Nat.add_comm 1 j]
  | cons a as => simp [h, Nat.add_assoc, Nat.add_comm 1 j]

@[simp] theorem answerAt_record (t : Txn) (s : State) (j : Nat) : answerAt (s.record t) j = answerAt s j := rfl
@[simp] theorem answerAt_stored (a : Offset) (v : List Byte) (s : State) (j : Nat) :
    answerAt (s.stored a v) j = answerAt s j := rfl
@[simp] theorem answerAt_torn (a : Offset) (n : Nat) (s : State) (j : Nat) :
    answerAt (s.torn a n) j = answerAt s j := rfl
@[simp] theorem answerAt_deliver (p : List Byte) (off : Offset) (s : State) (j : Nat) :
    answerAt (deliver p off s) j = answerAt s j := rfl
@[simp] theorem answerAt_emit (r : Report) (s : State) (j : Nat) : answerAt (s.emit r) j = answerAt s j := rfl

theorem ChannelOk.head {s : State} {n : Nat} (h : ChannelOk s (n + 1)) : answerAt s 0 = .ok := h 0 (by omega)

theorem ChannelOk.mono {s : State} {m n : Nat} (h : ChannelOk s n) (hm : m ≤ n) : ChannelOk s m :=
  fun j hj => h j (by omega)

theorem ChannelOk.congr {s t : State} {n : Nat} (h : ChannelOk s n) (ha : t.answers = s.answers)
    (ht : t.tick = s.tick) : ChannelOk t n :=
  fun j hj => (answerAt_congr ha ht j).trans (h j hj)

theorem ChannelOk.asked {s : State} {n : Nat} (h : ChannelOk s (n + 1)) : ChannelOk s.asked n :=
  fun j hj => by rw [answerAt_asked]; exact h (j + 1) (by omega)

theorem ChannelThen.asked {s : State} {n : Nat} {a : Answer} (h : ChannelThen s (n + 1) a) :
    ChannelThen s.asked n a :=
  ⟨h.1.asked, by rw [answerAt_asked]; exact h.2⟩

theorem memRead_ok {addr : Offset} {n : Nat} {s : State} (h : answerAt s 0 = .ok) :
    memRead addr n s = (.done (Memory.bytes s.med addr.toNat n), s.asked.record (.read addr n .ok)) := by
  simp [memRead, h]

theorem memRead_fail {addr : Offset} {n : Nat} {s : State} (h : answerAt s 0 = .fail) :
    memRead addr n s = (.raised .channelFailure addr.toNat, s.asked.record (.read addr n .fail)) := by
  simp [memRead, h]

/-- Everything a channel read can do: its bytes are the Medium's or it has none, and beside the environment it changes
nothing. -/
theorem memRead_cases {addr : Offset} {n : Nat} {s t : State} {e : Ended (List Byte)} (h : memRead addr n s = (e, t)) :
    (e = .done (Memory.bytes s.med addr.toNat n) ∧ t = s.asked.record (.read addr n .ok)) ∨
    (e = .raised .channelFailure addr.toNat ∧ t = s.asked.record (.read addr n .fail)) ∨
    (e = .reset ∧ (t = s.asked ∨ t = s.asked.record (.read addr n .resetDuring))) := by
  unfold memRead at h
  split at h <;> cases h <;> simp

theorem memWrite_ok {addr : Offset} {v : List Byte} {s : State} (h : answerAt s 0 = .ok) :
    memWrite addr v s = (.done (), (s.stored addr v).asked.record (.write addr v .ok)) := by
  simp [memWrite, h]

theorem memWrite_fail {addr : Offset} {v : List Byte} {s : State} (h : answerAt s 0 = .fail) :
    memWrite addr v s =
      (.raised .channelFailure addr.toNat, (s.torn addr v.length).asked.record (.write addr v .fail)) := by
  simp [memWrite, h]

/-- Everything a channel write can do: the bytes are stored, or the span is left unspecified and an error or a reset ends
the operation, or a reset strikes first. -/
theorem memWrite_cases {addr : Offset} {v : List Byte} {s t : State} {e : Ended Unit} (h : memWrite addr v s = (e, t)) :
    (e = .done () ∧ t = (s.stored addr v).asked.record (.write addr v .ok)) ∨
    (e = .raised .channelFailure addr.toNat ∧ t = (s.torn addr v.length).asked.record (.write addr v .fail)) ∨
    (e = .reset ∧
      (t = s.asked ∨ t = (s.torn addr v.length).asked.record (.write addr v .resetDuring))) := by
  unfold memWrite at h
  split at h <;> cases h <;> simp

/-- Everything the end of an operation can do. -/
theorem complete_cases {α : Type} (op : OpSel) (f : α → OpResult) (e : Ended α) (s : State) :
    (∃ a, e = .done a ∧ complete op f (e, s) = { s with result := f a }) ∨
    (∃ k i, e = .raised k i ∧ complete op f (e, s) = s.raise op k i) ∨
    (e = .reset ∧ complete op f (e, s) = s.resetBlock) := by
  cases e with
  | done a => exact .inl ⟨a, rfl, rfl⟩
  | raised k i => exact .inr (.inl ⟨k, i, rfl, rfl⟩)
  | reset => exact .inr (.inr ⟨rfl, rfl⟩)

end Sys2Proof.Machine
end

