-- ==== Sys2Proof/Laws/Checksum.lean ====
section
/-! SUPPORT. One step of the checksum: when its result has a zero low byte, when it is zero, and how the loop composes. -/

namespace Sys2Proof.Machine

@[simp] theorem crcFrom_nil (c : Half) : crcFrom c [] = c := rfl
@[simp] theorem crcFrom_cons (c : Half) (b : Byte) (bs : List Byte) : crcFrom c (b :: bs) = crcFrom (crcStep c b) bs := rfl
theorem crcFrom_append (c : Half) (as bs : List Byte) : crcFrom c (as ++ bs) = crcFrom (crcFrom c as) bs := by
  simp [crcFrom]

/-- The three projections of a mixed byte, as a function of the byte before its self-shift. -/
def crcProject (x : Byte) : Half :=
  let m : Half := (x ^^^ (x >>> 4)).setWidth 16
  (m <<< 12) ^^^ (m <<< 5) ^^^ m

theorem crcStep_eq (c : Half) (b : Byte) : crcStep c b = (c <<< 8) ^^^ crcProject (hi8 c ^^^ b) := by
  simp only [crcStep, crcMix, crcProject, BitVec.xor_assoc]

theorem crcProject_lo_zero : ∀ x : Byte, lo8 (crcProject x) = 0 → x = 0 := by decide +kernel
theorem crcProject_zero : crcProject 0 = 0 := by decide

theorem xor_interchange {w : Nat} (a b c d : BitVec w) : (a ^^^ b) ^^^ (c ^^^ d) = (a ^^^ c) ^^^ (b ^^^ d) := by
  rw [BitVec.xor_assoc, BitVec.xor_assoc, ← BitVec.xor_assoc b, BitVec.xor_comm b c, BitVec.xor_assoc c]

/-- The projections are linear over exclusive or. -/
theorem crcProject_xor (x y : Byte) : crcProject (x ^^^ y) = crcProject x ^^^ crcProject y := by
  have mix : (x ^^^ y) ^^^ ((x ^^^ y) >>> 4) = (x ^^^ (x >>> 4)) ^^^ (y ^^^ (y >>> 4)) := by
    rw [BitVec.ushiftRight_xor_distrib, xor_interchange]
  simp only [crcProject, mix, BitVec.setWidth_xor (x := x ^^^ x >>> 4)]
  generalize BitVec.setWidth 16 (x ^^^ x >>> 4) = m
  generalize BitVec.setWidth 16 (y ^^^ y >>> 4) = n
  rw [BitVec.shiftLeft_xor_distrib, BitVec.shiftLeft_xor_distrib, xor_interchange (m <<< 12),
    xor_interchange (m <<< 12 ^^^ m <<< 5)]

theorem lo8_shift (c : Half) : lo8 (c <<< 8) = 0 := by
  ext i hi
  simp only [lo8, BitVec.getElem_extractLsb', BitVec.getLsbD_shiftLeft]
  have : i < 8 := hi
  simp [this]

theorem lo8_xor (a b : Half) : lo8 (a ^^^ b) = lo8 a ^^^ lo8 b := by
  ext i hi
  simp [lo8]

theorem hi8_shift (c : Half) : hi8 (c <<< 8) = lo8 c := by
  ext i hi
  simp only [lo8, hi8, BitVec.getElem_extractLsb', BitVec.getLsbD_shiftLeft]
  have : i < 8 := hi
  simp; omega

theorem crcProject_lo_inj {x y : Byte} (h : lo8 (crcProject x) = lo8 (crcProject y)) : x = y := by
  have h0 : lo8 (crcProject (x ^^^ y)) = 0 := by rw [crcProject_xor, lo8_xor, h, BitVec.xor_self]; rfl
  exact BitVec.xor_eq_zero_iff.mp (crcProject_lo_zero _ h0)

/-- The low byte of a step's result depends on the mixed byte alone. -/
theorem lo8_crcStep (c : Half) (b : Byte) : lo8 (crcStep c b) = lo8 (crcProject (hi8 c ^^^ b)) := by
  simp [crcStep_eq, lo8_xor, lo8_shift]

/-- A step on the accumulator's own high byte shifts the low byte up. -/
theorem crcStep_hi8 (c : Half) : crcStep c (hi8 c) = c <<< 8 := by
  rw [crcStep_eq, BitVec.xor_self, show (0#8 : Byte) = 0 from rfl, crcProject_zero]
  exact BitVec.xor_zero

/-- A step's result has a zero low byte exactly when the input byte is the accumulator's high byte (R84). -/
theorem lo8_crcStep_eq_zero {c : Half} {b : Byte} : lo8 (crcStep c b) = 0 ↔ b = hi8 c := by
  rw [lo8_crcStep]
  constructor
  · intro h
    have := crcProject_lo_zero _ h
    exact (BitVec.xor_eq_zero_iff.mp this).symm
  · rintro rfl
    rw [BitVec.xor_self]; decide

/-- For a fixed accumulator, distinct bytes give distinct results (R88). -/
theorem crcStep_inj_byte {c : Half} {b b' : Byte} (h : crcStep c b = crcStep c b') : b = b' := by
  have h1 := congrArg lo8 h
  rw [lo8_crcStep, lo8_crcStep] at h1
  have h2 := crcProject_lo_inj h1
  have h3 := congrArg (hi8 c ^^^ ·) h2
  simpa [← BitVec.xor_assoc] using h3

end Sys2Proof.Machine
end

