-- ==== Sys2Proof/Laws/Codec.lean ====
section
/-! SUPPORT. The Slot Codec: legality, the terminator search, the frame, and everything ENCODE and DECODE can do. -/

namespace Sys2Proof.Machine

theorem legalPayload_iff {p : List Byte} :
    legalPayload p = true ↔ 1 ≤ p.length ∧ p.length ≤ Config.payloadMax ∧ Config.terminator ∉ p := by
  simp [legalPayload, and_assoc]

theorem legalPayload_boot : legalPayload Config.bootPayload = true := by decide

theorem legalPayload_probe (p : Config.LegalPayload) : legalPayload p.bytes = true := legalPayload_iff.mpr p.legal

theorem legalPayload_pending (s : State) : legalPayload (pendingPayload s) = true := by
  unfold pendingPayload
  split
  · exact legalPayload_boot
  · exact legalPayload_probe _

@[simp] theorem length_be16 (c : Half) : (be16 c).length = 2 := rfl

@[simp] theorem length_frameOf (p : List Byte) : (frameOf p).length = p.length + 3 := by simp [frameOf]

/-- The terminator search answers the least index of a zero byte. -/
theorem firstTerminator_eq_some {bs : List Byte} {t : Nat} :
    firstTerminator bs = some t ↔
      bs[t]? = some Config.terminator ∧ ∀ j, j < t → bs[j]? ≠ some Config.terminator := by
  induction bs generalizing t with
  | nil => simp [firstTerminator]
  | cons b bs ih =>
    by_cases hb : b = Config.terminator
    · simp only [firstTerminator, hb, if_true, Option.some.injEq]
      constructor
      · rintro rfl; simp
      · rintro ⟨_, h⟩
        by_contra hne
        exact h 0 (by omega) (by simp)
    · simp only [firstTerminator, hb, if_false]
      cases t with
      | zero =>
        simp only [List.getElem?_cons_zero, Option.some.injEq, hb, false_and, iff_false]
        split <;> simp
      | succ t =>
        refine Iff.trans (b := firstTerminator bs = some t) (by cases firstTerminator bs <;> simp) ?_
        rw [ih]
        constructor
        · rintro ⟨h1, h2⟩
          refine ⟨by simpa using h1, fun j hj => ?_⟩
          cases j with
          | zero => simpa using hb
          | succ j => simpa using h2 j (by omega)
        · rintro ⟨h1, h2⟩
          exact ⟨by simpa using h1, fun j hj => by simpa using h2 (j + 1) (by omega)⟩

theorem firstTerminator_eq_none {bs : List Byte} : firstTerminator bs = none ↔ Config.terminator ∉ bs := by
  induction bs with
  | nil => simp [firstTerminator]
  | cons b bs ih =>
    by_cases hb : b = Config.terminator
    · simp [firstTerminator, hb]
    · simp only [firstTerminator, hb, if_false, List.mem_cons, not_or, ← ih]
      have hb' := Ne.symm hb
      cases firstTerminator bs <;> simp_all

/-- Tests (a), (b) and (s) of R97, one by one. -/
theorem frameSpan_eq_some {limit : Nat} {image : List Byte} {t : Nat} :
    frameSpan limit image = some t ↔
      image.headD Config.terminator ≠ Config.terminator ∧ t < limit ∧ image[t]? = some Config.terminator ∧
        (∀ j, j < t → image[j]? ≠ some Config.terminator) ∧ t + 3 ≤ Config.slotSize := by
  unfold frameSpan
  split
  · rename_i ha
    exact ⟨fun h => (by cases h), fun h => absurd ha h.1⟩
  · rename_i ha
    constructor
    · intro h
      split at h
      · cases h
      · rename_i u hu
        split at h
        · cases h
        · cases h
          obtain ⟨h1, h2⟩ := firstTerminator_eq_some.mp hu
          have ht : t < limit := by
            by_contra hc
            rw [List.getElem?_take, if_neg hc] at h1
            cases h1
          rw [List.getElem?_take, if_pos ht] at h1
          exact ⟨ha, ht, h1, fun j hj => by
            have := h2 j hj
            rwa [List.getElem?_take, if_pos (show j < limit by omega)] at this,
            by omega⟩
    · rintro ⟨_, h1, h2, h3, h4⟩
      have : firstTerminator (image.take limit) = some t :=
        firstTerminator_eq_some.mpr ⟨by rw [List.getElem?_take, if_pos h1]; exact h2,
          fun j hj => by rw [List.getElem?_take, if_pos (show j < limit by omega)]; exact h3 j hj⟩
      rw [this]
      simp; omega

/-- The verdict on a slot image is `Some` exactly for a sealed span, and then the payload is what stands before it. -/
theorem slotPayload_eq_some {limit : Nat} {image p : List Byte} :
    slotPayload limit image = some p ↔
      ∃ t, frameSpan limit image = some t ∧ crc16 (image.take (t + 3)) = 0 ∧ p = image.take t := by
  unfold slotPayload
  cases frameSpan limit image with
  | none => simp
  | some t =>
    simp only [sealed, beq_iff_eq, Option.some.injEq, exists_eq_left']
    split <;> simp_all [eq_comm]

theorem Params.limit_bounds (p : Config.Params) : 61 ≤ p.limit ∧ p.limit ≤ 62 := by
  unfold Config.Params.limit
  split <;> omega

/-- A decoded payload is a string a slot can hold: not empty, with room for its terminator and checksum, no zero byte. -/
theorem slotPayload_sound {limit : Nat} {image p : List Byte} (h : slotPayload limit image = some p) :
    1 ≤ p.length ∧ p.length + 3 ≤ Config.slotSize ∧ Config.terminator ∉ p := by
  obtain ⟨t, ht, _, rfl⟩ := slotPayload_eq_some.mp h
  obtain ⟨h1, h2, h3, h4, h5⟩ := frameSpan_eq_some.mp ht
  have hlen : t < image.length := (List.getElem?_eq_some_iff.mp h3).1
  have ht0 : t ≠ 0 := by
    rintro rfl
    cases image with
    | nil => simp at hlen
    | cons b bs => simp at h3; exact h1 (by simpa using h3)
  refine ⟨by simp; omega, by simp only [List.length_take]; omega, fun hm => ?_⟩
  obtain ⟨j, hj, he⟩ := List.getElem_of_mem hm
  simp only [List.length_take] at hj
  refine h4 j (by omega) ?_
  rw [List.getElem_take] at he
  rw [List.getElem?_eq_getElem (by omega), he]

/-- Everything ENCODE can do: the frame in `SLOTBUF` and its checksum in `CRC_ACC`, or `PayloadInvalid` and no change. -/
theorem encodeSlot_cases {p : List Byte} {s t : State} {e : Ended (List Byte)} (h : encodeSlot p s = (e, t)) :
    (legalPayload p = true ∧ e = .done (frameOf p) ∧
      t = { s with
        slotbuf := frameOf p ++ s.slotbuf.drop (p.length + 3)
        crcAcc := crc16 (p ++ [Config.terminator]) }) ∨
    (legalPayload p = false ∧ e = .raised .payloadInvalid p.length ∧ t = s) := by
  unfold encodeSlot at h
  split at h <;> cases h <;> simp_all

/-- Everything DECODE can do: a verdict that is a function of the image, and nothing but `CRC_ACC` changes. -/
theorem decodeSlot_spec (image : List Byte) (s : State) :
    (decodeSlot image s).1 = slotPayload s.params.limit image ∧
      ∃ c, (decodeSlot image s).2 = { s with crcAcc := c } :=
  ⟨rfl, _, rfl⟩

end Sys2Proof.Machine
end

