-- ==== Sys2Proof/Laws/LogEngine.lean ====
section
/-! SUPPORT. The Log Engine: everything a slot read, a scan, an append, an erase and a read-back can do. -/

namespace Sys2Proof.Machine

/-- The state after a successful read of the slot at `off`. -/
def State.sawSlot (off : Offset) (s : State) : State :=
  { s.asked.record (.read off Config.slotSize .ok) with
    scanOff := off
    slotbuf := Memory.bytes s.med off.toNat Config.slotSize
    crcAcc := judgeCrc s.params.limit (Memory.bytes s.med off.toNat Config.slotSize) s.crcAcc }

theorem readSlot_ok {off : Offset} {s : State} (h : answerAt s 0 = .ok) :
    readSlot off s =
      (.done (slotPayload s.params.limit (Memory.bytes s.med off.toNat Config.slotSize)), s.sawSlot off) := by
  have h' : answerAt { s with scanOff := off } 0 = .ok := h
  simp only [readSlot, memRead_ok h']
  rfl

theorem readSlot_fail {off : Offset} {s : State} (h : answerAt s 0 = .fail) :
    readSlot off s = (.raised .channelFailure off.toNat,
      { s.asked.record (.read off Config.slotSize .fail) with scanOff := off }) := by
  have h' : answerAt { s with scanOff := off } 0 = .fail := h
  simp only [readSlot, memRead_fail h']
  rfl

/-- What reading leaves alone: everything but the working storage, the channel's answers and the trace, which grows by slot
reads only. -/
structure ReadOnly (s t : State) : Prop where
  cursor : t.cursor = s.cursor
  fsm : t.fsm = s.fsm
  pending : t.pending = s.pending
  inp : t.inp = s.inp
  med : t.med = s.med
  params : t.params = s.params
  events : t.events = s.events
  slotbuf : s.slotbuf.length = Config.slotSize → t.slotbuf.length = Config.slotSize
  trace : ∃ l, t.trace = s.trace ++ l ∧ ∀ x ∈ l, ∃ off ∈ slotOffsets, ∃ a, x = .read off Config.slotSize a

theorem ReadOnly.refl (s : State) : ReadOnly s s :=
  ⟨rfl, rfl, rfl, rfl, rfl, rfl, rfl, id, [], by simp, by simp⟩

theorem ReadOnly.trans {s t u : State} (h : ReadOnly s t) (k : ReadOnly t u) : ReadOnly s u := by
  obtain ⟨l, hl, hl'⟩ := h.trace
  obtain ⟨m, hm, hm'⟩ := k.trace
  refine ⟨k.cursor.trans h.cursor, k.fsm.trans h.fsm, k.pending.trans h.pending, k.inp.trans h.inp, k.med.trans h.med,
    k.params.trans h.params, k.events.trans h.events, fun x => k.slotbuf (h.slotbuf x), l ++ m, by simp [hl, hm], ?_⟩
  intro x hx
  rcases List.mem_append.mp hx with hx | hx
  · exact hl' x hx
  · exact hm' x hx

/-- Everything the read of one slot can do. -/
theorem readSlot_cases {off : Offset} {s t : State} {e : Ended (Option (List Byte))} (h : readSlot off s = (e, t)) :
    (answerAt s 0 = .ok ∧
      e = .done (slotPayload s.params.limit (Memory.bytes s.med off.toNat Config.slotSize)) ∧ t = s.sawSlot off) ∨
    (e = .raised .channelFailure off.toNat ∧
      t = { s.asked.record (.read off Config.slotSize .fail) with scanOff := off }) ∨
    (e = .reset ∧ (t = { s.asked with scanOff := off } ∨
      t = { s.asked.record (.read off Config.slotSize .resetDuring) with scanOff := off })) := by
  cases hr : memRead off Config.slotSize { s with scanOff := off } with
  | mk e' u =>
    rcases memRead_cases hr with ⟨rfl, rfl⟩ | ⟨rfl, rfl⟩ | ⟨rfl, rfl | rfl⟩
    · have hok : answerAt s 0 = .ok := by
        simp only [memRead] at hr
        split at hr <;> first | (rename_i ha; exact ha) | cases hr
      rw [readSlot_ok hok] at h
      cases h
      exact .inl ⟨hok, rfl, rfl⟩
    all_goals
      simp only [readSlot, hr] at h
      cases h
      simp [State.record, State.asked]

/-- A slot read touches nothing but working storage and the channel; the reports and the results stay too. -/
theorem readSlot_readOnly {off : Offset} {s t : State} {e : Ended (Option (List Byte))} (hoff : off ∈ slotOffsets)
    (h : readSlot off s = (e, t)) :
    ReadOnly s t ∧ t.out = s.out ∧ t.yielded = s.yielded ∧ t.result = s.result := by
  rcases readSlot_cases h with ⟨_, _, rfl⟩ | ⟨_, rfl⟩ | ⟨_, rfl | rfl⟩
  · exact ⟨⟨rfl, rfl, rfl, rfl, rfl, rfl, rfl, fun _ => by simp [State.sawSlot], _, rfl, by simpa using hoff⟩,
      rfl, rfl, rfl⟩
  · exact ⟨⟨rfl, rfl, rfl, rfl, rfl, rfl, rfl, id, _, rfl, by simpa using hoff⟩, rfl, rfl, rfl⟩
  · exact ⟨⟨rfl, rfl, rfl, rfl, rfl, rfl, rfl, id, [], by simp, by simp⟩, rfl, rfl, rfl⟩
  · exact ⟨⟨rfl, rfl, rfl, rfl, rfl, rfl, rfl, id, _, rfl, by simpa using hoff⟩, rfl, rfl, rfl⟩

/-- Everything `BOOTSCAN` can do: it reads, and then writes the cursor with the outcome, or ends with the cursor as it was. -/
theorem bootScanOver_cases {offs : List Offset} (hoffs : offs ⊆ slotOffsets) :
    ∀ {s t : State} {e : Ended Recovery}, bootScanOver offs s = (e, t) →
      ∃ u, ReadOnly s u ∧ u.out = s.out ∧ u.yielded = s.yielded ∧ u.result = s.result ∧
        ((∃ off ∈ offs, e = .done (.empty off) ∧ t = { u with cursor := off }) ∨
        (e = .done .full ∧ t = { u with cursor := BitVec.ofNat 32 Config.capacity }) ∨
        (∃ off ∈ offs, e = .raised .channelFailure off.toNat ∧ t = u) ∨
        (e = .reset ∧ t = u)) := by
  induction offs with
  | nil =>
    rintro s t e h
    cases h
    exact ⟨s, .refl s, rfl, rfl, rfl, .inr (.inl ⟨rfl, rfl⟩)⟩
  | cons off rest ih =>
    intro s t e h
    have hin : off ∈ slotOffsets := hoffs (by simp)
    cases hr : readSlot off s with
    | mk e' u =>
      obtain ⟨hu, h1, h2, h3⟩ := readSlot_readOnly hin hr
      rcases readSlot_cases hr with ⟨_, he, _⟩ | ⟨he, _⟩ | ⟨he, _⟩
      · generalize hv : slotPayload s.params.limit (Memory.bytes s.med off.toNat Config.slotSize) = v at he
        subst he
        cases v with
        | none =>
          simp only [bootScanOver, hr] at h
          cases h
          exact ⟨u, hu, h1, h2, h3, .inl ⟨off, by simp, rfl, rfl⟩⟩
        | some p =>
          simp only [bootScanOver, hr] at h
          obtain ⟨w, hw, g1, g2, g3, hc⟩ := ih (fun x hx => hoffs (by simp [hx])) h
          refine ⟨w, hu.trans hw, g1.trans h1, g2.trans h2, g3.trans h3, ?_⟩
          rcases hc with ⟨o, ho, hx⟩ | hx | ⟨o, ho, hx⟩ | hx
          · exact .inl ⟨o, by simp [ho], hx⟩
          · exact .inr (.inl hx)
          · exact .inr (.inr (.inl ⟨o, by simp [ho], hx⟩))
          · exact .inr (.inr (.inr hx))
      · subst he
        simp only [bootScanOver, hr] at h
        cases h
        exact ⟨_, hu, h1, h2, h3, .inr (.inr (.inl ⟨off, by simp, rfl, rfl⟩))⟩
      · subst he
        simp only [bootScanOver, hr] at h
        cases h
        exact ⟨_, hu, h1, h2, h3, .inr (.inr (.inr ⟨rfl, rfl⟩))⟩

/-- Everything `READALL` can do: it reads, and delivers entries a slot can hold, which the `Read` state reports. -/
theorem readOver_cases {offs : List Offset} (hoffs : offs ⊆ slotOffsets) :
    ∀ {s t : State} {e : Ended Bool}, readOver offs s = (e, t) →
      ReadOnly s t ∧ t.result = s.result ∧
        (∃ es : List Entry, t.yielded = s.yielded ++ es ∧
          t.out = s.out ++ (if s.fsm = .read then es.map Entry.report else []) ∧
          ∀ x ∈ es, x.offset ∈ offs ∧ 1 ≤ x.payload.length ∧ x.payload.length + 3 ≤ Config.slotSize ∧
            Config.terminator ∉ x.payload) ∧
        ((∃ b, e = .done b) ∨ (∃ off ∈ offs, e = .raised .channelFailure off.toNat) ∨ e = .reset) := by
  induction offs with
  | nil =>
    rintro s t e h
    cases h
    exact ⟨.refl s, rfl, ⟨[], by simp, by simp, by simp⟩, .inl ⟨_, rfl⟩⟩
  | cons off rest ih =>
    intro s t e h
    have hin : off ∈ slotOffsets := hoffs (by simp)
    cases hr : readSlot off s with
    | mk e' u =>
      obtain ⟨hu, h1, h2, h3⟩ := readSlot_readOnly hin hr
      rcases readSlot_cases hr with ⟨_, he, _⟩ | ⟨he, _⟩ | ⟨he, _⟩
      · generalize hv : slotPayload s.params.limit (Memory.bytes s.med off.toNat Config.slotSize) = v at he
        subst he
        cases v with
        | none =>
          simp only [readOver, hr] at h
          cases h
          exact ⟨hu, h3, ⟨[], by simp [h2], by simp [h1], by simp⟩, .inl ⟨_, rfl⟩⟩
        | some p =>
          simp only [readOver, hr] at h
          obtain ⟨hw, g3, ⟨es, k1, k2, k3⟩, hc⟩ := ih (fun x hx => hoffs (by simp [hx])) h
          have hd : ReadOnly u (deliver p off u) := ⟨rfl, rfl, rfl, rfl, rfl, rfl, rfl, id, [], by simp, by simp⟩
          refine ⟨(hu.trans hd).trans hw, g3.trans h3, ⟨⟨p, off⟩ :: es, by simp [k1, h2], ?_, ?_⟩, ?_⟩
          · rw [k2]
            by_cases hf : s.fsm = .read <;> simp [hu.fsm, hf, h1, Entry.report]
          · intro x hx
            rcases List.mem_cons.mp hx with rfl | hx
            · exact ⟨by simp, slotPayload_sound hv⟩
            · exact ⟨by simp [(k3 x hx).1], (k3 x hx).2⟩
          · rcases hc with hx | ⟨o, ho, hx⟩ | hx
            · exact .inl hx
            · exact .inr (.inl ⟨o, by simp [ho], hx⟩)
            · exact .inr (.inr hx)
      · subst he
        simp only [readOver, hr] at h
        cases h
        exact ⟨hu, h3, ⟨[], by simp [h2], by simp [h1], by simp⟩, .inr (.inl ⟨off, by simp, rfl⟩)⟩
      · subst he
        simp only [readOver, hr] at h
        cases h
        exact ⟨hu, h3, ⟨[], by simp [h2], by simp [h1], by simp⟩, .inr (.inr rfl)⟩

/-- What storing leaves alone: everything but the Medium, the working storage, the channel's answers and the trace. -/
structure StoreOnly (s t : State) : Prop where
  cursor : t.cursor = s.cursor
  fsm : t.fsm = s.fsm
  pending : t.pending = s.pending
  inp : t.inp = s.inp
  out : t.out = s.out
  params : t.params = s.params
  events : t.events = s.events
  result : t.result = s.result
  yielded : t.yielded = s.yielded

theorem StoreOnly.trans {s t u : State} (h : StoreOnly s t) (k : StoreOnly t u) : StoreOnly s u :=
  ⟨k.cursor.trans h.cursor, k.fsm.trans h.fsm, k.pending.trans h.pending, k.inp.trans h.inp, k.out.trans h.out,
    k.params.trans h.params, k.events.trans h.events, k.result.trans h.result, k.yielded.trans h.yielded⟩

theorem memWrite_storeOnly {addr : Offset} {v : List Byte} {s t : State} {e : Ended Unit}
    (h : memWrite addr v s = (e, t)) : StoreOnly s t := by
  rcases memWrite_cases h with ⟨_, rfl⟩ | ⟨_, rfl⟩ | ⟨_, rfl | rfl⟩ <;> exact ⟨rfl, rfl, rfl, rfl, rfl, rfl, rfl, rfl, rfl⟩

/-- Everything a channel write can do to the Medium and the trace: some bytes of the span's length stand in the span, or
nothing was issued. -/
theorem memWrite_medium {addr : Offset} {v : List Byte} {s t : State} {e : Ended Unit}
    (h : memWrite addr v s = (e, t)) :
    (∃ w : List Byte, w.length = v.length ∧ t.med = Memory.writeBytes s.med addr.toNat w ∧
      (e = .done () → w = v) ∧ t.slotbuf = s.slotbuf ∧ ∃ a, t.trace = s.trace ++ [.write addr v a]) ∨
    (e = .reset ∧ t = s.asked) := by
  rcases memWrite_cases h with ⟨_, rfl⟩ | ⟨he, rfl⟩ | ⟨he, rfl | rfl⟩
  · exact .inl ⟨v, rfl, rfl, fun _ => rfl, rfl, _, rfl⟩
  · exact .inl ⟨_, length_tornBytes .., rfl, fun h => by simp [he] at h, rfl, _, rfl⟩
  · exact .inr ⟨he, rfl⟩
  · exact .inl ⟨_, length_tornBytes .., rfl, fun h => by simp [he] at h, rfl, _, rfl⟩

/-- Everything `APPEND` can do: refuse before any transaction, or encode and issue one write at the cursor, which advances
only when the write succeeded. -/
theorem appendEntry_cases {p : List Byte} {s t : State} {e : Ended Unit} (h : appendEntry p s = (e, t)) :
    (logFull s.cursor = true ∧ e = .raised .protocolViolation s.cursor.toNat ∧ t = s) ∨
    (logFull s.cursor = false ∧ legalPayload p = false ∧ e = .raised .payloadInvalid p.length ∧ t = s) ∨
    (logFull s.cursor = false ∧ legalPayload p = true ∧
      ∃ u, memWrite s.cursor (frameOf p)
          { s with
            slotbuf := frameOf p ++ s.slotbuf.drop (p.length + 3)
            crcAcc := crc16 (p ++ [Config.terminator]) } = (e, u) ∧
        ((e = .done () ∧ t = { u with cursor := s.cursor + BitVec.ofNat 32 Config.slotSize }) ∨
          (e = .raised .channelFailure s.cursor.toNat ∧ t = u) ∨ (e = .reset ∧ t = u))) := by
  unfold appendEntry at h
  split at h
  · cases h; exact .inl ⟨by assumption, rfl, rfl⟩
  · rename_i hf
    have hf : logFull s.cursor = false := by simpa using hf
    cases he : encodeSlot p s with
    | mk e' u =>
      rcases encodeSlot_cases he with ⟨hl, rfl, rfl⟩ | ⟨hl, rfl, rfl⟩
      · refine .inr (.inr ⟨hf, hl, ?_⟩)
        rw [he] at h
        simp only at h
        cases hw : memWrite s.cursor (frameOf p)
          { s with
            slotbuf := frameOf p ++ s.slotbuf.drop (p.length + 3)
            crcAcc := crc16 (p ++ [Config.terminator]) } with
        | mk e'' w =>
          rw [hw] at h
          rcases memWrite_cases hw with ⟨rfl, rfl⟩ | ⟨rfl, rfl⟩ | ⟨rfl, rfl | rfl⟩ <;> cases h
          · exact ⟨_, rfl, .inl ⟨rfl, rfl⟩⟩
          · exact ⟨_, rfl, .inr (.inl ⟨rfl, rfl⟩)⟩
          · exact ⟨_, rfl, .inr (.inr ⟨rfl, rfl⟩)⟩
          · exact ⟨_, rfl, .inr (.inr ⟨rfl, rfl⟩)⟩
      · rw [he] at h
        cases h
        exact .inr (.inl ⟨hf, hl, rfl, rfl⟩)

/-- Everything `ERASEALL` can do to what is not the Medium: the cursor is written only at the end. -/
theorem eraseOver_cases {offs : List Offset} :
    ∀ {s t : State} {e : Ended Unit}, eraseOver offs s = (e, t) →
      ∃ u, StoreOnly s u ∧ u.slotbuf = s.slotbuf ∧
        ((e = .done () ∧ t = { u with cursor := 0 }) ∨
          (∃ off ∈ offs, e = .raised .channelFailure off.toNat ∧ t = u) ∨ (e = .reset ∧ t = u)) := by
  induction offs with
  | nil =>
    rintro s t e h
    cases h
    exact ⟨s, ⟨rfl, rfl, rfl, rfl, rfl, rfl, rfl, rfl, rfl⟩, rfl, .inl ⟨rfl, rfl⟩⟩
  | cons off rest ih =>
    intro s t e h
    cases hr : memWrite off [Config.eraseByte] { s with scanOff := off } with
    | mk e' u =>
      have hu : StoreOnly s u := by
        have := memWrite_storeOnly hr
        exact ⟨this.cursor, this.fsm, this.pending, this.inp, this.out, this.params, this.events, this.result, this.yielded⟩
      have hb : u.slotbuf = s.slotbuf := by
        rcases memWrite_medium hr with ⟨_, _, _, _, hb, _⟩ | ⟨_, rfl⟩
        · exact hb
        · rfl
      simp only [eraseOver, hr] at h
      rcases memWrite_cases hr with ⟨rfl, _⟩ | ⟨rfl, _⟩ | ⟨rfl, _⟩
      · obtain ⟨w, hw, hwb, hc⟩ := ih h
        refine ⟨w, hu.trans hw, hwb.trans hb, ?_⟩
        rcases hc with hx | ⟨o, ho, hx⟩ | hx
        · exact .inl hx
        · exact .inr (.inl ⟨o, by simp [ho], hx⟩)
        · exact .inr (.inr hx)
      · cases h
        exact ⟨_, hu, hb, .inr (.inl ⟨off, by simp, rfl, rfl⟩)⟩
      · cases h
        exact ⟨_, hu, hb, .inr (.inr ⟨rfl, rfl⟩)⟩

end Sys2Proof.Machine
end

