-- ==== Sys2Proof/Laws/PerInstr.lean ====
section
/-! SUPPORT. What is shown of every instruction, one lemma per constructor: the form its code has. -/

namespace Sys2Proof.Laws.CodeForm

/-- The form of an instruction's code: the reset input has no bytes; an operation's call begins with its `OPSEL`; a command's
line ends with the terminator and a well-formed one holds no other (30_encoding.md sections 2 and 3). -/
def Statement (i : Instr) : Prop :=
  i.wellFormed = true →
    match Machine.opselOf i with
    | some op => ∃ operand, encode i = .call (BitVec.ofNat 8 op.code :: operand)
    | none => encode i = .resetInput ∨
        ∃ line : List Byte, Config.newline ∉ line ∧ encode i = .line (line ++ [Config.newline])

theorem reset : Statement .reset := fun _ => .inl rfl
theorem erase : Statement .erase := fun _ => .inr ⟨Config.eraseWord, by decide, rfl⟩
theorem write : Statement .write := fun _ => .inr ⟨Config.writeWord, by decide, rfl⟩
theorem read : Statement .read := fun _ => .inr ⟨Config.readWord, by decide, rfl⟩
theorem emptyLine : Statement .emptyLine := fun _ => .inr ⟨[], by decide, rfl⟩
theorem unrecognisedLine (line : List Byte) : Statement (.unrecognisedLine line) := fun h => by
  refine .inr ⟨line, ?_, rfl⟩
  simp only [Instr.wellFormed, Instr.lineWellFormed, Bool.and_eq_true] at h
  simpa using h.1.1.1.2
theorem crc16 (bytes : List Byte) : Statement (.crc16 bytes) := fun _ => ⟨bytes, rfl⟩
theorem encode (payload : List Byte) : Statement (.encode payload) := fun _ => ⟨payload, rfl⟩
theorem decode (image : List Byte) : Statement (.decode image) := fun _ => ⟨image, rfl⟩
theorem bootscan : Statement .bootscan := fun _ => ⟨[], rfl⟩
theorem append (payload : List Byte) : Statement (.append payload) := fun _ => ⟨payload, rfl⟩
theorem eraseall : Statement .eraseall := fun _ => ⟨[], rfl⟩
theorem readall : Statement .readall := fun _ => ⟨[], rfl⟩

end Sys2Proof.Laws.CodeForm
end

