-- ==== Sys2Proof/Laws/Scan.lean ====
section
/-! SUPPORT. Scans on a channel that answers: the leading part of a scan, and the slot offsets it visits. -/

namespace Sys2Proof.Machine

theorem slotOffset_toNat {i : Nat} (h : i ≤ 32) : (slotOffset i).toNat = i * 64 := by
  simp only [slotOffset, Config.slotSize, BitVec.toNat_ofNat]
  omega

theorem mem_slotOffsets {off : Offset} : off ∈ slotOffsets ↔ ∃ i, i < 32 ∧ off = slotOffset i := by
  simp [slotOffsets, eq_comm]

theorem slotOffset_mem {i : Nat} (h : i < 32) : slotOffset i ∈ slotOffsets := mem_slotOffsets.mpr ⟨i, h, rfl⟩

/-- Every scan offset is slot-aligned and at most `LAST_OFFSET`. -/
theorem slotOffsets_bounds {off : Offset} (h : off ∈ slotOffsets) : off.toNat % 64 = 0 ∧ off.toNat ≤ 1984 := by
  obtain ⟨i, hi, rfl⟩ := mem_slotOffsets.mp h
  rw [slotOffset_toNat (by omega)]
  omega

/-- The scan order around slot `k`. -/
theorem slotOffsets_split {k : Nat} (h : k < 32) :
    slotOffsets = (List.range k).map slotOffset ++ slotOffset k :: (slotOffsets.drop (k + 1)) := by
  have h1 : slotOffsets.take k = (List.range k).map slotOffset := by
    simp only [slotOffsets, Config.nslots, ← List.map_take, List.take_range, Nat.min_eq_left (show k ≤ 32 by omega)]
  have hk : k < slotOffsets.length := by simp [slotOffsets]; omega
  have h2 : slotOffsets.drop k = slotOffset k :: slotOffsets.drop (k + 1) := by
    rw [List.drop_eq_getElem_cons hk]
    congr 1
    simp [slotOffsets]
  rw [← h1, ← h2, List.take_append_drop]

theorem slotOffsets_eq : slotOffsets = (List.range 32).map slotOffset := rfl

/-- The verdict on the slot at a scan offset. -/
theorem entryAt_eq {s : State} {i : Nat} (h : i ≤ 32) :
    slotPayload s.params.limit (Memory.bytes s.med (slotOffset i).toNat Config.slotSize) = entryAt s.params s.med i := by
  rw [slotOffset_toNat h]; rfl

theorem spent_zero (s : State) : s.spent 0 = s := rfl

theorem answers_drop_tail (l : List Answer) (n : Nat) : l.tail.drop n = l.drop (n + 1) := by
  cases l <;> simp

theorem ChannelOk.of_spent {s : State} {m n : Nat} (h : ChannelOk s (m + n)) : ChannelOk (s.spent m) n := by
  intro j hj
  have := h (m + j) (by omega)
  simpa [answerAt, State.spent, Nat.add_assoc] using this

theorem answerAt_spent (s : State) (m j : Nat) : answerAt (s.spent m) j = answerAt s (m + j) := by
  simp [answerAt, State.spent, Nat.add_assoc]

/-- The working storage and the channel after some slot reads: everything else is as it was. -/
def State.scanned (n : Nat) (so : Offset) (sb : List Byte) (ca : Half) (l : List Txn) (s : State) : State :=
  { s.spent n with scanOff := so, slotbuf := sb, crcAcc := ca, trace := s.trace ++ l }

theorem sawSlot_eq (off : Offset) (s : State) :
    s.sawSlot off = s.scanned 1 off (Memory.bytes s.med off.toNat Config.slotSize)
      (judgeCrc s.params.limit (Memory.bytes s.med off.toNat Config.slotSize) s.crcAcc) [.read off Config.slotSize .ok] := by
  simp [State.sawSlot, State.scanned, State.spent, State.asked, State.record]

theorem scanned_scanned (m n : Nat) (so so' : Offset) (sb sb' : List Byte) (ca ca' : Half) (l l' : List Txn) (s : State) :
    (s.scanned m so sb ca l).scanned n so' sb' ca' l' = s.scanned (m + n) so' sb' ca' (l ++ l') := by
  simp [State.scanned, State.spent, List.drop_drop, Nat.add_assoc]

theorem scanned_zero (s : State) : s.scanned 0 s.scanOff s.slotbuf s.crcAcc [] = s := by
  simp [State.scanned, State.spent]

/-- The valid leading slots of a boot scan are passed, one read each. -/
theorem bootScanOver_valid (bs : List Offset) : ∀ (as : List Offset) (s : State), ChannelOk s as.length →
    (∀ off ∈ as, (slotPayload s.params.limit (Memory.bytes s.med off.toNat Config.slotSize)).isSome = true) →
    ∃ so sb ca, bootScanOver (as ++ bs) s =
      bootScanOver bs (s.scanned as.length so sb ca (as.map fun off => .read off Config.slotSize .ok))
  | [], s, _, _ => ⟨s.scanOff, s.slotbuf, s.crcAcc, by simp [scanned_zero]⟩
  | off :: as, s, hok, hv => by
    obtain ⟨p, hp⟩ := Option.isSome_iff_exists.mp (hv off (by simp))
    have hs := sawSlot_eq off s
    obtain ⟨so, sb, ca, h⟩ := bootScanOver_valid bs as (s.sawSlot off)
      (fun j hj => by rw [hs]; exact (answerAt_spent s 1 j).trans (hok (1 + j) (by simp; omega)))
      (fun o ho => hv o (by simp [ho]))
    refine ⟨so, sb, ca, ?_⟩
    simp only [List.cons_append, bootScanOver, readSlot_ok hok.head, hp, h]
    rw [hs, scanned_scanned]
    simp [Nat.add_comm]

/-- The valid leading slots of a read-back are delivered, one read each. -/
theorem readOver_valid (bs : List Offset) : ∀ (as : List (Offset × List Byte)) (s : State), ChannelOk s as.length →
    (∀ x ∈ as, slotPayload s.params.limit (Memory.bytes s.med x.1.toNat Config.slotSize) = some x.2) →
    ∃ so sb ca, readOver (as.map (·.1) ++ bs) s =
      readOver bs { s.scanned as.length so sb ca (as.map fun x => .read x.1 Config.slotSize .ok) with
        yielded := s.yielded ++ as.map fun x => ⟨x.2, x.1⟩
        out := s.out ++ if s.fsm = .read then as.map fun x => .entryMsg x.2 x.1 else [] }
  | [], s, _, _ => ⟨s.scanOff, s.slotbuf, s.crcAcc, by simp [State.scanned, State.spent]⟩
  | (off, p) :: as, s, hok, hv => by
    have hp := hv (off, p) (by simp)
    have hs := sawSlot_eq off s
    obtain ⟨so, sb, ca, h⟩ := readOver_valid bs as (deliver p off (s.sawSlot off))
      (fun j hj => by rw [answerAt_deliver, hs]; exact (answerAt_spent s 1 j).trans (hok (1 + j) (by simp; omega)))
      (fun o ho => hv o (by simp [ho]))
    refine ⟨so, sb, ca, ?_⟩
    simp only [List.map_cons, List.cons_append, readOver, readSlot_ok hok.head, hp, h]
    rw [hs]
    congr 1
    by_cases hf : s.fsm = .read <;>
      simp [State.scanned, State.spent, deliver, hf, Nat.add_comm 1, Nat.add_assoc]

/-- The Medium after the first byte of each of these slots is zeroed. -/
def Memory.erased : Memory → List Offset → Memory
  | m, [] => m
  | m, off :: offs => Memory.erased (Memory.writeBytes m off.toNat [Config.eraseByte]) offs

/-- The leading writes of an erase that succeed. -/
theorem eraseOver_ok (bs : List Offset) : ∀ (as : List Offset) (s : State), ChannelOk s as.length →
    ∃ so, eraseOver (as ++ bs) s = eraseOver bs { s.spent as.length with
      scanOff := so
      med := Memory.erased s.med as
      trace := s.trace ++ as.map fun off => .write off [Config.eraseByte] .ok }
  | [], s, _ => ⟨s.scanOff, by simp [State.spent, Memory.erased]⟩
  | off :: as, s, hok => by
    have hok' : answerAt { s with scanOff := off } 0 = .ok := hok.head
    obtain ⟨so, h⟩ := eraseOver_ok bs as
      ((({ s with scanOff := off } : State).stored off [Config.eraseByte]).asked.record (.write off [Config.eraseByte] .ok))
      (fun j hj => by
        rw [answerAt_record, answerAt_asked, answerAt_stored]
        exact hok (j + 1) (by simp; omega))
    refine ⟨so, ?_⟩
    simp only [List.cons_append, eraseOver, memWrite_ok hok', h]
    congr 1
    simp [State.spent, State.asked, State.record, State.stored, Memory.erased, Nat.add_comm 1, Nat.add_assoc]

/-- What an erased Medium reads as. -/
theorem Memory.read_erased : ∀ {offs : List Offset} {m : Memory}, Memory.wf m = true → offs ⊆ slotOffsets →
    Memory.wf (Memory.erased m offs) = true ∧
      ∀ a, Memory.read (Memory.erased m offs) a = if a ∈ offs.map (·.toNat) then Config.eraseByte else Memory.read m a
  | [], m, h, _ => ⟨h, fun a => by simp [Memory.erased]⟩
  | off :: offs, m, h, hs => by
    have hb := slotOffsets_bounds (hs (show off ∈ off :: offs by simp))
    have hw : Memory.wf (Memory.writeBytes m off.toNat [Config.eraseByte]) = true :=
      Memory.wf_writeBytes h (show off.toNat + 1 ≤ 2048 by omega)
    obtain ⟨h1, h2⟩ := Memory.read_erased (offs := offs) hw (fun x hx => hs (by simp [hx]))
    refine ⟨h1, fun a => ?_⟩
    have h3 : Memory.read (Memory.writeBytes m off.toNat [Config.eraseByte]) a =
        if a = off.toNat then Config.eraseByte else Memory.read m a := Memory.read_write h a
    rw [Memory.erased, h2, h3]
    by_cases ha : a = off.toNat <;> simp [ha]

end Sys2Proof.Machine
end

