-- ==== Sys2Proof/Laws/Reset.lean ====
section
/-! SUPPORT. An operation that ends by a reset was struck at one of its own transactions, behind successful ones. -/

namespace Sys2Proof.Machine

/-- A reset that strikes after one more successful transaction. -/
theorem ResetStrikes.later {n : Nat} {s t : State} (h : ResetStrikes n t) (h0 : answerAt s 0 = .ok)
    (ha : ∀ j, answerAt t j = answerAt s (j + 1)) : ResetStrikes (n + 1) s := by
  obtain ⟨j, hj, hok, hr⟩ := h
  refine ⟨j + 1, by omega, fun i hi => ?_, by rwa [← ha]⟩
  cases i with
  | zero => exact h0
  | succ i => rw [← ha]; exact hok i (by omega)

theorem ResetStrikes.mono {m n : Nat} {s : State} (h : ResetStrikes m s) (hm : m ≤ n) : ResetStrikes n s := by
  obtain ⟨j, hj, hr⟩ := h
  exact ⟨j, by omega, hr⟩

theorem ResetStrikes.first {s : State} (h : answerAt s 0 = .resetBefore ∨ answerAt s 0 = .resetDuring) :
    ResetStrikes 1 s := ⟨0, by omega, fun _ h => absurd h (by omega), h⟩

theorem memWrite_reset {off : Offset} {v : List Byte} {s t : State} (h : memWrite off v s = (.reset, t)) :
    ResetStrikes 1 s := by
  refine .first ?_
  cases ha : answerAt s 0 with
  | ok => rw [memWrite_ok ha] at h; cases h
  | fail => rw [memWrite_fail ha] at h; cases h
  | resetBefore => exact .inl rfl
  | resetDuring => exact .inr rfl

/-- A write that succeeds takes the answer `ok` and leaves the answers behind it. -/
theorem memWrite_done {off : Offset} {v : List Byte} {s t : State} {u : Unit} (h : memWrite off v s = (.done u, t)) :
    answerAt s 0 = .ok ∧ ∀ j, answerAt t j = answerAt s (j + 1) := by
  cases ha : answerAt s 0 with
  | ok => rw [memWrite_ok ha] at h; cases h; exact ⟨rfl, fun j => by simp⟩
  | fail => rw [memWrite_fail ha] at h; cases h
  | resetBefore => simp [memWrite, ha] at h
  | resetDuring => simp [memWrite, ha] at h

theorem readSlot_reset {off : Offset} {s t : State} (h : readSlot off s = (.reset, t)) : ResetStrikes 1 s := by
  refine .first ?_
  cases ha : answerAt s 0 with
  | ok => rw [readSlot_ok ha] at h; cases h
  | fail => rw [readSlot_fail ha] at h; cases h
  | resetBefore => exact .inl rfl
  | resetDuring => exact .inr rfl

/-- A slot read that succeeds takes the answer `ok` and leaves the answers behind it. -/
theorem readSlot_done {off : Offset} {s t : State} {v : Option (List Byte)} (h : readSlot off s = (.done v, t)) :
    answerAt s 0 = .ok ∧ ∀ j, answerAt t j = answerAt s (j + 1) := by
  rcases readSlot_cases h with ⟨h0, _, rfl⟩ | ⟨h, _⟩ | ⟨h, _⟩
  · exact ⟨h0, fun j => (answerAt_asked s j)⟩
  · cases h
  · cases h

theorem bootScanOver_reset : ∀ {offs : List Offset} {s t : State}, bootScanOver offs s = (.reset, t) →
    ResetStrikes offs.length s
  | [], _, _, h => by cases h
  | off :: rest, s, t, h => by
    cases hr : readSlot off s with
    | mk e u =>
      rw [bootScanOver, hr] at h
      rcases e with (_ | p) | _ | _
      · cases h
      · obtain ⟨h0, ha⟩ := readSlot_done hr
        exact (bootScanOver_reset h).later h0 ha
      · cases h
      · exact (readSlot_reset hr).mono (by simp)

theorem readOver_reset : ∀ {offs : List Offset} {s t : State}, readOver offs s = (.reset, t) →
    ResetStrikes offs.length s
  | [], _, _, h => by cases h
  | off :: rest, s, t, h => by
    cases hr : readSlot off s with
    | mk e u =>
      rw [readOver, hr] at h
      rcases e with (_ | p) | _ | _
      · cases h
      · obtain ⟨h0, ha⟩ := readSlot_done hr
        exact (readOver_reset h).later h0 fun j => (answerAt_deliver ..).trans (ha j)
      · cases h
      · exact (readSlot_reset hr).mono (by simp)

theorem eraseOver_reset : ∀ {offs : List Offset} {s t : State}, eraseOver offs s = (.reset, t) →
    ResetStrikes offs.length s
  | [], _, _, h => by cases h
  | off :: rest, s, t, h => by
    cases hr : memWrite off [Config.eraseByte] { s with scanOff := off } with
    | mk e u =>
      rw [eraseOver, hr] at h
      rcases e with _ | _ | _
      · obtain ⟨h0, ha⟩ := memWrite_done hr
        exact (eraseOver_reset h).later h0 ha
      · cases h
      · have h1 := memWrite_reset hr
        exact ResetStrikes.mono (s := s) h1 (by simp)

theorem appendEntry_reset {p : List Byte} {s t : State} (h : appendEntry p s = (.reset, t)) : ResetStrikes 1 s := by
  rcases appendEntry_cases h with ⟨_, h, _⟩ | ⟨_, _, h, _⟩ | ⟨_, _, u, hu, _⟩
  · cases h
  · cases h
  · have h1 := memWrite_reset hu
    exact h1

end Sys2Proof.Machine
end

