-- ==== Sys2Proof/Laws/Step.lean ====
section
/-! SUPPORT. The step: taking a line, and everything a step can be. -/

namespace Sys2Proof

/-- A line ends at the first terminator. -/
theorem splitLine_append {line rest : List Byte} (h : Config.newline ∉ line) :
    splitLine (line ++ Config.newline :: rest) = some (line, rest) := by
  induction line with
  | nil => simp [splitLine]
  | cons b bs ih =>
    simp only [List.mem_cons, not_or] at h
    simp only [List.cons_append, splitLine, if_neg (Ne.symm h.1), ih h.2]

theorem splitLine_none {bytes : List Byte} (h : Config.newline ∉ bytes) : splitLine bytes = none := by
  induction bytes with
  | nil => rfl
  | cons b bs ih =>
    simp only [List.mem_cons, not_or] at h
    simp only [splitLine, if_neg (Ne.symm h.1), ih h.2]

theorem splitLine_some {line rest : List Byte} :
    ∀ {bytes : List Byte}, splitLine bytes = some (line, rest) →
      bytes = line ++ Config.newline :: rest ∧ Config.newline ∉ line := by
  intro bytes
  induction bytes generalizing line with
  | nil => intro h; cases h
  | cons b bs ih =>
    intro h
    unfold splitLine at h
    split at h
    · rename_i hb
      cases h
      exact ⟨by rw [hb]; rfl, List.not_mem_nil⟩
    · rename_i hb
      split at h
      · cases h
      · rename_i hsp
        cases h
        obtain ⟨h1, h2⟩ := ih hsp
        exact ⟨by rw [h1]; rfl, fun hm => by
          rcases List.mem_cons.mp hm with hm | hm
          · exact hb hm.symm
          · exact h2 hm⟩

/-- Everything a line's content can decode to. -/
theorem decodeLine_cases (line : List Byte) :
    (line = [] ∧ decodeLine line = .emptyLine) ∨ (line = Config.eraseWord ∧ decodeLine line = .erase) ∨
    (line = Config.writeWord ∧ decodeLine line = .write) ∨ (line = Config.readWord ∧ decodeLine line = .read) ∨
    ((line ≠ [] ∧ line ≠ Config.eraseWord ∧ line ≠ Config.writeWord ∧ line ≠ Config.readWord) ∧
      decodeLine line = .unrecognisedLine line) := by
  unfold decodeLine
  split_ifs <;> simp_all

namespace Machine

/-- When the block moves, the step is the block's. -/
theorem step_blockMoves {s u : State} (h : BlockMoves s u) : step s = blockStep u := by
  rcases h with ⟨h, rfl⟩ | ⟨rest, h, rfl⟩ <;> simp [step, wholeStep, h]

/-- Everything a step can be: a move of the block, the arrival of a byte, a reset, or a bench call. -/
theorem step_cases (s : State) :
    (∃ u, BlockMoves s u ∧ step s = blockStep u) ∨
    (∃ b rest, s.events = .byte b :: rest ∧ step s = .next { s with events := rest, inp := s.inp ++ [b] }) ∨
    (∃ rest, s.events = .reset :: rest ∧ step s = exec .reset { s with events := rest }) ∨
    (∃ bytes rest, s.events = .call bytes :: rest ∧ step s = benchStep bytes { s with events := rest }) := by
  cases h : s.events with
  | nil => exact .inl ⟨s, .inl ⟨h, rfl⟩, step_blockMoves (.inl ⟨h, rfl⟩)⟩
  | cons e rest =>
    cases e with
    | byte b => exact .inr (.inl ⟨b, rest, rfl, by simp [step, wholeStep, h]⟩)
    | reset => exact .inr (.inr (.inl ⟨rest, rfl, by simp [step, wholeStep, h]⟩))
    | call bytes => exact .inr (.inr (.inr ⟨bytes, rest, rfl, by simp [step, wholeStep, h]⟩))
    | run => exact .inl ⟨_, .inr ⟨rest, h, rfl⟩, step_blockMoves (.inr ⟨rest, h, rfl⟩)⟩

/-- Every instruction completes: `exec` answers a next state. -/
theorem exec_next (i : Instr) (s : State) : ∃ t, exec i s = .next t := by
  cases i <;> exact ⟨_, rfl⟩

theorem onNext_next (f : State → State) (s : State) : onNext f (.next s) = .next (f s) := rfl

end Machine

end Sys2Proof
end

