-- ==== Sys2Proof/Tests/Slice0.lean ====
section
/-! SUPPORT. The model's own tests: ill-formed terms refused, a word written out for every constructor, single steps with the
results of 95_test_vectors.md ("V" numbers are its vectors), and for every obligation with hypotheses a state that meets
them. -/

open Sys2Proof Sys2Proof.Machine

namespace Sys2Proof.Tests

/-! ### Small states -/

/-- The default parameters of 95_test_vectors.md: window 61, payload `probe`, report `always`. -/
def defaults : Config.Params := ⟨.limit61, ⟨[0x70, 0x72, 0x6F, 0x62, 0x65], by decide⟩, .always⟩

/-- A block with default parameters and channel answers laid down. -/
def bench (fsm : Fsm) (answers : List Answer) : State :=
  { State.reset with params := defaults, fsm := fsm, answers := answers }

/-- A channel that answers `n` transactions. -/
def oks (n : Nat) : List Answer := List.replicate n .ok

/-- The frame of `A` (V2.2). -/
def frameA : List Byte := [0x41, 0x00, 0x23, 0xF2]

/-- A Medium whose first `k` slots hold the frame of `A`. -/
def slots : Nat → Memory
  | 0 => []
  | k + 1 => Memory.writeBytes (slots k) (k * 64) frameA

/-- `k` payloads `A`. -/
def payloadsA (k : Nat) : List (List Byte) := List.replicate k [0x41]

/-- The next state of an outcome, the given one where there is none. -/
def after (d : State) : Host.Outcome State Fault Refusal → State
  | .next t => t
  | _ => d

/-- The state after one step. -/
def stepped (s : State) : State := after s (step s)

/-- The state after one instruction. -/
def ran (i : Instr) (s : State) : State := after s (exec i s)

/-! ### Ill-formed terms are refused (30_encoding.md R66 to R68; 41_slot_codec.md R97) -/

theorem test_wf_empty_unrecognised : (Instr.unrecognisedLine []).wellFormed = false := by decide
theorem test_wf_newline_inside : (Instr.unrecognisedLine [0x61, 0x0A]).wellFormed = false := by decide
theorem test_wf_erase_word : (Instr.unrecognisedLine [0x65, 0x72, 0x61, 0x73, 0x65]).wellFormed = false := by decide
theorem test_wf_write_word : (Instr.unrecognisedLine [0x77, 0x72, 0x69, 0x74, 0x65]).wellFormed = false := by decide
theorem test_wf_read_word : (Instr.unrecognisedLine [0x72, 0x65, 0x61, 0x64]).wellFormed = false := by decide
theorem test_wf_short_image : (Instr.decode (List.replicate 63 0)).wellFormed = false := by decide
theorem test_wf_long_image : (Instr.decode (List.replicate 65 0)).wellFormed = false := by decide

/-! ### Decoding (the words of 30_encoding.md R67, R69 and of spec/opcode_table.json) -/

theorem test_decode_reset : decode .resetInput = .ok .reset := by decide
theorem test_decode_erase : decode (.line [0x65, 0x72, 0x61, 0x73, 0x65, 0x0A]) = .ok .erase := by decide
theorem test_decode_write : decode (.line [0x77, 0x72, 0x69, 0x74, 0x65, 0x0A]) = .ok .write := by decide
theorem test_decode_read : decode (.line [0x72, 0x65, 0x61, 0x64, 0x0A]) = .ok .read := by decide
theorem test_decode_empty : decode (.line [0x0A]) = .ok .emptyLine := by decide
/-- `ERASE` is no command (R68). -/
theorem test_decode_unrecognised :
    decode (.line [0x45, 0x52, 0x41, 0x53, 0x45, 0x0A]) = .ok (.unrecognisedLine [0x45, 0x52, 0x41, 0x53, 0x45]) := by
  decide
theorem test_decode_crc16 : decode (.call [0x01, 0x41]) = .ok (.crc16 [0x41]) := by decide
theorem test_decode_encode : decode (.call [0x02, 0x41]) = .ok (.encode [0x41]) := by decide
theorem test_decode_decode :
    decode (.call (0x03 :: List.replicate 64 0xFF)) = .ok (.decode (List.replicate 64 0xFF)) := by decide
theorem test_decode_bootscan : decode (.call [0x04]) = .ok .bootscan := by decide
theorem test_decode_append : decode (.call [0x05, 0x41]) = .ok (.append [0x41]) := by decide
theorem test_decode_eraseall : decode (.call [0x06]) = .ok .eraseall := by decide
theorem test_decode_readall : decode (.call [0x07]) = .ok .readall := by decide

theorem test_refuses_unterminated : decode (.line [0x72, 0x65, 0x61]) = .error .unterminatedLine := by decide
theorem test_refuses_two_lines : decode (.line [0x0A, 0x0A]) = .error .bytesAfterTerminator := by decide
theorem test_refuses_empty_call : decode (.call []) = .error .emptyCall := by decide
theorem test_refuses_opsel_zero : decode (.call [0x00]) = .error (.unassignedOpsel 0) := by decide
theorem test_refuses_opsel_fifteen : decode (.call [0x0F]) = .error (.unassignedOpsel 15) := by decide
theorem test_refuses_operand : decode (.call [0x04, 0x00]) = .error (.operandLength .bootscan 1) := by decide

/-- The table's words in its own byte order. -/
theorem test_table_lines :
    decodeTableWord 48 0x65726173650A = some .erase ∧ decodeTableWord 48 0x77726974650A = some .write ∧
      decodeTableWord 40 0x726561640A = some .read ∧ decodeTableWord 8 0x0A = some .emptyLine := by decide
/-- The same lines with the first byte lowest. -/
theorem test_table_lines_low_first :
    decodeTableWord 48 0x0A6573617265 = some .erase ∧ decodeTableWord 40 0x0A64616572 = some .read := by decide
theorem test_table_operations :
    decodeTableWord 4 1 = some (.crc16 []) ∧ decodeTableWord 4 2 = some (.encode []) ∧
      decodeTableWord 8 3 = some (.decode (List.replicate 64 0)) ∧ decodeTableWord 4 4 = some .bootscan ∧
      decodeTableWord 8 5 = some (.append []) ∧ decodeTableWord 8 6 = some .eraseall ∧
      decodeTableWord 8 7 = some .readall ∧ decodeTableWord 4 8 = none := by decide
/-- A placed word is the next step's instruction. -/
theorem test_fetch_erase : (stepped (State.reset.withFetchWord 48 0x65726173650A)).fsm = .erase := by decide
theorem test_fetch_crc16 : (stepped (State.reset.withFetchWord 8 1)).result = .checksum 0xFFFF := by decide

/-! ### Single instructions and steps (95_test_vectors.md) -/

/-- V1.10, V1.11. -/
theorem test_crc16_boot :
    (ran (.crc16 [0x42, 0x6F, 0x6F, 0x74, 0x00]) (bench .userInput [])).crcAcc = 0xBA1C ∧
      (ran (.crc16 [0x42, 0x6F, 0x6F, 0x74, 0x00, 0xBA, 0x1C]) (bench .userInput [])).crcAcc = 0x0000 := by decide
/-- V1.12. -/
theorem test_crc16_check :
    (ran (.crc16 [0x31, 0x32, 0x33, 0x34, 0x35, 0x36, 0x37, 0x38, 0x39]) (bench .userInput [])).result =
      .checksum 0x29B1 := by decide

/-- V2.1, over a SLOTBUF of zeros. -/
theorem test_encode_boot :
    (ran (.encode [0x42, 0x6F, 0x6F, 0x74]) (bench .userInput [])).slotbuf =
      [0x42, 0x6F, 0x6F, 0x74, 0x00, 0xBA, 0x1C] ++ List.replicate 57 0 := by decide
/-- V2.2h. -/
theorem test_encode_zero_inside :
    (ran (.encode [0x41, 0x00, 0x42]) (bench .read [])).out = [.errorMsg .payloadInvalid .encode 3] := by decide

/-- V2.14. -/
theorem test_decode_non_ascii :
    (ran (.decode ([0xFF, 0xFF, 0x00, 0x00, 0x00] ++ List.replicate 59 0xAA)) (bench .userInput [])).result =
      .decoded (some [0xFF, 0xFF]) := by decide
/-- V2.7: the two admissible windows differ. -/
theorem test_decode_window :
    slotPayload 61 (List.replicate 61 0x61 ++ [0x00, 0x5D, 0x47]) = none ∧
      slotPayload 62 (List.replicate 61 0x61 ++ [0x00, 0x5D, 0x47]) = some (List.replicate 61 0x61) := by
  decide +kernel

/-- V3.6: the third transaction fails. -/
theorem test_bootscan_fails :
    let t := ran .bootscan { bench .bootScan [.ok, .ok, .fail] with med := slots 4 }
    t.cursor = 0 ∧ t.result = .raised .channelFailure 128 ∧ t.trace.length = 3 := by decide +kernel

/-- V3.10: a full log is tested before the payload (60_exceptions.md R157). -/
theorem test_append_full :
    let t := ran (.append []) { bench .write (oks 1) with cursor := 2048 }
    t.result = .raised .protocolViolation 2048 ∧ t.trace = [] ∧ t.cursor = 2048 := by decide

/-- V3.8, on a Medium with an entry in slot 0. -/
theorem test_eraseall :
    let t := ran .eraseall { bench .erase (oks 32) with med := slots 1, cursor := 64 }
    t.cursor = 0 ∧ t.med = [(2, 0x23), (3, 0xF2)] ∧ t.trace.length = 32 := by decide +kernel
/-- V3.12: the sixth write fails. -/
theorem test_eraseall_fails :
    let t := ran .eraseall { bench .erase (oks 5 ++ [.fail]) with cursor := 2048 }
    t.cursor = 2048 ∧ t.result = .raised .channelFailure 320 ∧ t.trace.length = 6 := by decide +kernel

/-- V3.13, with `A` for `Boot`. -/
theorem test_readall :
    let t := ran .readall { bench .userInput (oks 2) with med := slots 1, cursor := 64 }
    t.yielded = [⟨[0x41], 0⟩] ∧ t.trace = [.read 0 64 .ok, .read 64 64 .ok] ∧ t.out = [] := by decide +kernel
/-- V3.17, in the state that reports entries. -/
theorem test_readall_fails :
    (ran .readall { bench .read [.ok, .fail] with med := slots 2 }).out =
      [.entryMsg [0x41] 0, .errorMsg .channelFailure .readall 64] := by decide +kernel

/-- RESET keeps the Medium and clears what R39 names. -/
theorem test_reset :
    let t := ran .reset { bench .write [] with med := slots 1, cursor := 64, out := [.bootMsg], inp := [0x72] }
    t.cursor = 0 ∧ t.fsm = .bootScan ∧ t.out = [] ∧ t.inp = [] ∧ t.med = slots 1 := by decide

/-- V4.1. -/
theorem test_line_erase :
    let t := stepped { bench .userInput [] with inp := [0x65, 0x72, 0x61, 0x73, 0x65, 0x0A] }
    t.fsm = .erase ∧ t.inp = [] ∧ t.out.length = 6 := by decide
/-- V4.2. -/
theorem test_line_write :
    let t := stepped { bench .userInput [] with inp := [0x77, 0x72, 0x69, 0x74, 0x65, 0x0A] }
    t.fsm = .write ∧ t.pending = .probeEntry := by decide
/-- V4.9, the first of the two lines. -/
theorem test_line_read :
    let t := stepped { bench .userInput [] with inp := [0x72, 0x65, 0x61, 0x64, 0x0A, 0x0A] }
    t.fsm = .read ∧ t.inp = [0x0A] := by decide
/-- V4.4. -/
theorem test_line_empty :
    let t := stepped { bench .userInput [] with inp := [0x0A] }
    t.fsm = .userInput ∧ t.out = [.echo 0x0A] := by decide
/-- V4.6. -/
theorem test_line_unrecognised :
    (stepped { bench .userInput [] with inp := [0x72, 0x65, 0x61, 0x64, 0x20, 0x0A] }).out =
      [.echo 0x72, .echo 0x65, .echo 0x61, .echo 0x64, .echo 0x20, .echo 0x0A, .invalidInputMsg] := by decide

/-- V3.1 and V4.10, from another cursor. -/
theorem test_boot_scan_step :
    let t := stepped { bench .bootScan (oks 1) with cursor := 128, pending := .probeEntry }
    t.fsm = .write ∧ t.pending = .bootEntry ∧ t.out = [.bootMsg] ∧ t.cursor = 0 ∧ t.trace = [.read 0 64 .ok] := by
  decide +kernel
/-- V3.9: the probe payload into the last slot. -/
theorem test_write_step :
    let t := stepped { bench .write (oks 1) with cursor := 1984, pending := .probeEntry }
    t.fsm = .userInput ∧ t.cursor = 2048 ∧
      Memory.bytes t.med 1984 8 = [0x70, 0x72, 0x6F, 0x62, 0x65, 0x00, 0x9E, 0x61] := by decide +kernel

/-! ### States that meet the hypotheses of the obligations -/

/-- Every one of the 32 slots holds `A`. -/
theorem fullLog : LeadingEntries defaults (slots 32) (payloadsA 32) := by decide +kernel
/-- Slots 0 to 30 hold `A`, slot 31 nothing. -/
theorem lastSlotFree : LeadingEntries defaults (slots 31) (payloadsA 31) ∧ entryAt defaults (slots 31) 31 = none := by
  decide +kernel
theorem slots_wf : Memory.wf (slots 32) = true ∧ Memory.wf (slots 31) = true := by decide +kernel
theorem emptyLog : LeadingEntries defaults [] [] ∧ entryAt defaults [] 0 = none := by decide +kernel

theorem witness_DecodeOfEncodeIsTheInstruction :
    (Instr.decode (List.replicate 64 0)).wellFormed = true ∧ (Instr.unrecognisedLine [0x20]).wellFormed = true := by
  decide
theorem witness_EveryLineHasOneMeaning : decode (.line [0x20, 0x0A]) = .ok (.unrecognisedLine [0x20]) := by decide
theorem witness_UnassignedOpselIsRefused :
    ({ bench .userInput [] with events := [.call [0xF0]] } : State).events = [.call [0xF0]] ∧
      (0xF0 : Byte).toNat % 16 = 0 ∧ 8 ≤ (0x08 : Byte).toNat % 16 ∧ 8 ≤ (0x0F : Byte).toNat % 16 := by decide
theorem witness_StepRunsTheTypedLine :
    let s : State := { bench .userInput [] with inp := [0x72, 0x65, 0x61, 0x64, 0x0A, 0x77] }
    BlockMoves s s ∧ s.fsm = .userInput ∧ s.inp = [0x72, 0x65, 0x61, 0x64] ++ Config.newline :: [0x77] ∧
      Config.newline ∉ ([0x72, 0x65, 0x61, 0x64] : List Byte) ∧
      decode (.line ([0x72, 0x65, 0x61, 0x64] ++ [Config.newline])) = .ok .read :=
  ⟨.inl ⟨rfl, rfl⟩, by decide⟩
/-- The block also moves when the event at the head lets it. -/
theorem witness_blockMoves_run :
    let s : State := { bench .userInput [] with events := [.run, .reset] }
    BlockMoves s { s with events := [.reset] } := .inr ⟨[.reset], rfl, rfl⟩
theorem witness_StepRunsTheNextEvent :
    ({ bench .write [] with events := [.reset] } : State).events = [.reset] ∧
      ({ bench .write [] with events := [.call [0x04]] } : State).events = [.call [0x04]] ∧
      decode (.call [0x04]) = .ok .bootscan ∧
      ({ bench .write [] with events := [.byte 0x0A] } : State).events = [.byte 0x0A] := by decide
theorem witness_ActionStatesRunTheirOperation :
    BlockMoves (bench .bootScan []) (bench .bootScan []) ∧ BlockMoves (bench .erase []) (bench .erase []) ∧
      BlockMoves (bench .write []) (bench .write []) ∧ (bench .write []).pending = .bootEntry ∧
      ({ bench .write [] with pending := .probeEntry } : State).pending = .probeEntry ∧
      BlockMoves (bench .read []) (bench .read []) :=
  ⟨.inl ⟨rfl, rfl⟩, .inl ⟨rfl, rfl⟩, .inl ⟨rfl, rfl⟩, rfl, rfl, .inl ⟨rfl, rfl⟩⟩
/-- V4.8. -/
theorem witness_UserInputWaitsForALine :
    let s : State := { bench .userInput [] with inp := [0x72, 0x65, 0x61] }
    BlockMoves s s ∧ s.fsm = .userInput ∧ Config.newline ∉ s.inp := ⟨.inl ⟨rfl, rfl⟩, by decide⟩
theorem witness_ChecksumDetectsOneChangedByte : (0x41 : Byte) ≠ 0x42 := by decide

/-- The shortest and the longest legal payload; ENCODE's, APPEND's and DECODE's statements share them. -/
theorem witness_EncodeBuildsTheFrame :
    (1 ≤ ([0x41] : List Byte).length ∧ ([0x41] : List Byte).length ≤ 60 ∧ (0x00 : Byte) ∉ ([0x41] : List Byte)) ∧
      (1 ≤ (List.replicate 60 (0x61 : Byte)).length ∧ (List.replicate 60 (0x61 : Byte)).length ≤ 60 ∧
        (0x00 : Byte) ∉ List.replicate 60 (0x61 : Byte)) := by decide
theorem witness_EncodeRefusesAnIllegalPayload :
    60 < (List.replicate 61 (0x61 : Byte)).length ∧ (0x00 : Byte) ∈ ([0x41, 0x00, 0x42] : List Byte) := by decide
/-- A valid image, one that differs behind the frame, and V2.7, whose terminator stands at 61, the last index of the window 62
whose checksum bytes lie in the slot. -/
theorem witness_ValidityIsTheThreeConditions :
    (frameA ++ List.replicate 60 0xAA).length = 64 ∧ (frameA ++ List.replicate 60 0x00).length = 64 ∧
      (frameA ++ List.replicate 60 0xAA)[1]? = some 0x00 ∧
      (frameA ++ List.replicate 60 0x00).take (1 + 3) = (frameA ++ List.replicate 60 0xAA).take (1 + 3) ∧
      (List.replicate 61 0x61 ++ [0x00, 0x5D, 0x47]).length = 64 ∧ 61 + 3 ≤ 64 ∧
      (slotPayload 62 (List.replicate 61 0x61 ++ [0x00, 0x5D, 0x47])).isSome = true ∧
      (slotPayload 61 (List.replicate 61 0x61 ++ [0x00, 0x5D, 0x47])).isSome = false := by decide +kernel
/-- V2.15: a valid image, and a second one that differs behind the frame. -/
theorem witness_DecodeJudgesByTheValidityRule :
    (frameA ++ List.replicate 60 0xAA).length = 64 ∧ (frameA ++ List.replicate 60 0x00).length = 64 ∧
      slotPayload 61 (frameA ++ List.replicate 60 0xAA) = some [0x41] ∧
      slotPayload 61 (List.replicate 64 0xFF) = none := by decide
theorem witness_FrameDecodesWhateverFollows :
    ([0x41] : List Byte).length + 3 + (List.replicate 60 (0xAA : Byte)).length = 64 ∧
      (List.replicate 60 (0x61 : Byte)).length + 3 + ([0x55] : List Byte).length = 64 := by decide
theorem witness_DecodedPayloadEncodesToItsFrame :
    (frameA ++ List.replicate 60 0xAA).length = 64 ∧
      exec (.decode (frameA ++ List.replicate 60 0xAA)) (bench .userInput []) =
        .next (ran (.decode (frameA ++ List.replicate 60 0xAA)) (bench .userInput [])) ∧
      (ran (.decode (frameA ++ List.replicate 60 0xAA)) (bench .userInput [])).result = .decoded (some [0x41]) :=
  ⟨by decide, rfl, by decide⟩
/-- The payload byte and the last checksum byte changed. -/
theorem witness_OneChangedFrameByteIsNotDecoded :
    ([0x41] : List Byte).length + 3 + (List.replicate 60 (0xAA : Byte)).length = 64 ∧
      (frameOf [0x41])[0]? ≠ some 0x42 ∧ (0x42 : Byte) ≠ 0x00 ∧ (frameOf [0x41])[3]? ≠ some 0x00 := by decide

theorem witness_BootscanStopsAtTheFirstInvalidSlot :
    let s : State := { bench .bootScan (oks 32) with med := slots 31 }
    (payloadsA 31).length < 32 ∧ LeadingEntries s.params s.med (payloadsA 31) ∧
      entryAt s.params s.med (payloadsA 31).length = none ∧ ChannelOk s ((payloadsA 31).length + 1) :=
  ⟨by decide, lastSlotFree.1, lastSlotFree.2, by decide⟩
theorem witness_BootscanStopsAtTheFirstInvalidSlot_empty :
    LeadingEntries (bench .bootScan (oks 1)).params (bench .bootScan (oks 1)).med [] ∧
      entryAt (bench .bootScan (oks 1)).params (bench .bootScan (oks 1)).med 0 = none ∧
      ChannelOk (bench .bootScan (oks 1)) 1 :=
  ⟨emptyLog.1, emptyLog.2, by decide⟩
theorem witness_BootscanReportsAFullLog :
    let s : State := { bench .bootScan (oks 32) with med := slots 32 }
    (payloadsA 32).length = 32 ∧ LeadingEntries s.params s.med (payloadsA 32) ∧ ChannelOk s 32 :=
  ⟨by decide, fullLog, by decide⟩
theorem witness_BootscanReadFailureKeepsTheCursor :
    let s : State := { bench .bootScan (oks 31 ++ [.fail]) with med := slots 31 }
    (payloadsA 31).length < 32 ∧ LeadingEntries s.params s.med (payloadsA 31) ∧
      ChannelThen s (payloadsA 31).length .fail ∧ ChannelThen (bench .bootScan [.fail]) 0 .fail :=
  ⟨by decide, lastSlotFree.1, by decide, by decide⟩
theorem witness_AppendStoresTheFrameAtTheCursor :
    let s : State := { bench .write (oks 1) with cursor := 1984 }
    Memory.wf s.med = true ∧ s.cursor.toNat ≤ 1984 ∧ ChannelOk s 1 := by decide
theorem witness_AppendOnAFullLogIsRefused :
    1984 < ({ bench .write [] with cursor := 2048 } : State).cursor.toNat := by decide
theorem witness_AppendOfAnIllegalPayloadIsRefused :
    ({ bench .write [] with cursor := 1984 } : State).cursor.toNat ≤ 1984 ∧ (0x00 : Byte) ∈ ([0x00] : List Byte) := by
  decide
theorem witness_AppendFailedWriteSpoilsOnlyItsSpan :
    let s : State := { bench .write [.fail] with cursor := 1984 }
    Memory.wf s.med = true ∧ s.cursor.toNat ≤ 1984 ∧ ChannelThen s 0 .fail := by decide
theorem witness_EraseallInvalidatesEverySlot :
    let s : State := { bench .erase (oks 32) with med := slots 32 }
    Memory.wf s.med = true ∧ ChannelOk s 32 := ⟨slots_wf.1, by decide⟩
/-- Failure at the first and at the last slot. -/
theorem witness_EraseallFailureKeepsTheCursor :
    Memory.wf (bench .erase [.fail]).med = true ∧ ChannelThen (bench .erase [.fail]) 0 .fail ∧
      ChannelThen (bench .erase (oks 31 ++ [.fail])) 31 .fail := by decide
/-- No entry and 32 entries. -/
theorem witness_ReadallYieldsTheLeadingEntries :
    let s : State := { bench .read (oks 32) with med := slots 32 }
    ((payloadsA 32).length ≤ 32 ∧ LeadingEntries s.params s.med (payloadsA 32) ∧
      ((payloadsA 32).length < 32 → entryAt s.params s.med (payloadsA 32).length = none) ∧
      ChannelOk s (min ((payloadsA 32).length + 1) 32)) ∧
    LeadingEntries defaults [] [] ∧ entryAt defaults [] 0 = none ∧ ChannelOk (bench .read (oks 1)) (min (0 + 1) 32) :=
  ⟨⟨by decide, fullLog, fun h => absurd h (by decide), by decide⟩, emptyLog.1, emptyLog.2, by decide⟩
theorem witness_ReadallFailureKeepsDeliveredEntries :
    let s : State := { bench .read (oks 31 ++ [.fail]) with med := slots 31 }
    (payloadsA 31).length < 32 ∧ LeadingEntries s.params s.med (payloadsA 31) ∧
      ChannelThen s (payloadsA 31).length .fail := ⟨by decide, lastSlotFree.1, by decide⟩
theorem witness_EraseThenBootscanFindsAnEmptyLog :
    let s : State := { bench .erase (oks 33) with med := slots 32 }
    Memory.wf s.med = true ∧ ChannelOk s 33 := ⟨slots_wf.1, by decide⟩
/-- One entry behind which a slot is invalid, and 32 entries. -/
theorem witness_AppendedEntriesAreReadBack :
    (Memory.wf (bench .write (oks 64)).med = true ∧ (bench .write (oks 64)).cursor = 0 ∧
      (∀ p ∈ payloadsA 32, 1 ≤ p.length ∧ p.length ≤ 60 ∧ (0x00 : Byte) ∉ p) ∧
      ChannelOk (bench .write (oks 64)) ((payloadsA 32).length + min ((payloadsA 32).length + 1) 32)) ∧
    ((payloadsA 1).length < 32 → entryAt defaults [] (payloadsA 1).length = none) := by decide +kernel

theorem witness_ResetDuringAppendSpoilsOnlyItsSpan :
    let s : State := { bench .write [.resetDuring] with cursor := 1984 }
    Memory.wf s.med = true ∧ s.cursor.toNat ≤ 1984 ∧ ChannelThen s 0 .resetDuring ∧
      ChannelThen (bench .write [.resetBefore]) 0 .resetBefore := by decide
theorem witness_ResetDuringEraseKeepsCompletedWrites :
    Memory.wf (bench .erase []).med = true ∧ ChannelThen (bench .erase [.resetBefore]) 0 .resetBefore ∧
      ChannelThen (bench .erase (oks 31 ++ [.resetDuring])) 31 .resetDuring := by decide
/-- At the first slot and behind 31 entries. -/
theorem witness_ResetDuringAScanKeepsTheMedium :
    LeadingEntries defaults [] [] ∧ ChannelThen (bench .bootScan [.resetBefore]) 0 .resetBefore ∧
      LeadingEntries defaults (slots 31) (payloadsA 31) ∧ (payloadsA 31).length < 32 ∧
      ChannelThen (bench .read (oks 31 ++ [.resetDuring])) (payloadsA 31).length .resetDuring :=
  ⟨emptyLog.1, by decide, lastSlotFree.1, by decide, by decide⟩
/-- The guard against a reset tells states apart: none strikes within 32 successful answers, one strikes at the last. -/
theorem test_reset_strikes :
    ¬ ResetStrikes 32 (bench .read (oks 32 ++ [.resetDuring])) ∧ ResetStrikes 32 (bench .read (oks 31 ++ [.resetDuring])) ∧
      ¬ ResetStrikes 1 (bench .write [.fail, .resetBefore]) := by decide
theorem witness_EmptyLineOnlyEchoes :
    let s : State := { bench .userInput [] with inp := [0x0A, 0x72] }
    BlockMoves s s ∧ s.fsm = .userInput ∧ s.inp = 0x0A :: [0x72] := ⟨.inl ⟨rfl, rfl⟩, by decide⟩
theorem witness_UnrecognisedLineIsReported :
    let s : State := { bench .userInput [] with inp := [0x72, 0x65, 0x61, 0x64, 0x20, 0x0A] }
    let line : List Byte := [0x72, 0x65, 0x61, 0x64, 0x20]
    BlockMoves s s ∧ s.fsm = .userInput ∧ s.inp = line ++ 0x0A :: [] ∧ (0x0A : Byte) ∉ line ∧ line ≠ [] ∧
      line ≠ [0x65, 0x72, 0x61, 0x73, 0x65] ∧ line ≠ [0x77, 0x72, 0x69, 0x74, 0x65] ∧ line ≠ [0x72, 0x65, 0x61, 0x64] :=
  ⟨.inl ⟨rfl, rfl⟩, by decide⟩

/-- The three clauses: slot 31 free, a full log, a failed read at slot 0. -/
theorem witness_BootScanStepBranches :
    let s : State := { bench .bootScan (oks 32) with med := slots 31 }
    let u : State := { bench .bootScan (oks 32) with med := slots 32 }
    (BlockMoves s s ∧ LeadingEntries s.params s.med (payloadsA 31) ∧ entryAt s.params s.med 31 = none ∧
      ChannelOk s 32) ∧
    (BlockMoves u u ∧ LeadingEntries u.params u.med (payloadsA 32) ∧ ChannelOk u 32) ∧
    (LeadingEntries defaults [] [] ∧ ChannelThen (bench .bootScan [.fail]) 0 .fail) :=
  ⟨⟨.inl ⟨rfl, rfl⟩, lastSlotFree.1, lastSlotFree.2, by decide⟩, ⟨.inl ⟨rfl, rfl⟩, fullLog, by decide⟩, emptyLog.1,
    by decide⟩
theorem witness_WriteStepAppendsTheTaggedPayload :
    let s : State := { bench .write (oks 1) with cursor := 1984, pending := .probeEntry }
    BlockMoves s s ∧ s.fsm = .write ∧ Memory.wf s.med = true ∧ s.cursor.toNat ≤ 1984 ∧ ChannelOk s 1 :=
  ⟨.inl ⟨rfl, rfl⟩, by decide⟩
/-- A full log, and a failed write in the last slot. -/
theorem witness_WriteStepErrorsAreReported :
    let s : State := { bench .write [] with cursor := 2048 }
    let u : State := { bench .write [.fail] with cursor := 1984 }
    (BlockMoves s s ∧ s.fsm = .write ∧ 1984 < s.cursor.toNat) ∧
      BlockMoves u u ∧ u.fsm = .write ∧ u.cursor.toNat ≤ 1984 ∧ ChannelThen u 0 .fail ∧ Memory.wf u.med = true :=
  ⟨⟨.inl ⟨rfl, rfl⟩, by decide⟩, .inl ⟨rfl, rfl⟩, by decide⟩
/-- Success, and failure at the first and at the last slot. -/
theorem witness_EraseStepRunsEraseall :
    BlockMoves (bench .erase (oks 32)) (bench .erase (oks 32)) ∧ ChannelOk (bench .erase (oks 32)) 32 ∧
      ChannelThen (bench .erase [.fail]) 0 .fail ∧ ChannelThen (bench .erase (oks 31 ++ [.fail])) 31 .fail :=
  ⟨.inl ⟨rfl, rfl⟩, by decide⟩
theorem witness_EraseStepReturnsToUserInput :
    let s : State := { bench .erase (oks 32) with med := slots 32 }
    BlockMoves s s ∧ s.fsm = .erase ∧ Memory.wf s.med = true ∧ ChannelOk s 32 :=
  ⟨.inl ⟨rfl, rfl⟩, rfl, slots_wf.1, by decide⟩
/-- A full log under each reporting rule, an empty one, and a failure behind 31 entries. -/
theorem witness_ReadStepReportsThenCloses :
    (∀ r ∈ [ReadEndReport.always, .onInvalidSlot, .onlyIfNone],
      let s : State := { bench .read (oks 32) with med := slots 32, params := { defaults with readEnd := r } }
      s.fsm = .read ∧ s.events = [] ∧ s.params.limit = defaults.limit ∧ ChannelOk s (min (32 + 1) 32)) ∧
    LeadingEntries defaults (slots 32) (payloadsA 32) ∧ LeadingEntries defaults [] [] ∧
    LeadingEntries defaults (slots 31) (payloadsA 31) ∧ ChannelThen (bench .read (oks 31 ++ [.fail])) 31 .fail :=
  ⟨by decide, fullLog, emptyLog.1, lastSlotFree.1, by decide⟩
theorem witness_BootWritesABootEntry :
    let s : State := { bench .bootScan (oks 33) with med := slots 31 }
    s.events = [] ∧ s.fsm = .bootScan ∧ Memory.wf s.med = true ∧ LeadingEntries s.params s.med (payloadsA 31) ∧
      entryAt s.params s.med 31 = none ∧ ChannelOk s (31 + 2) :=
  ⟨rfl, rfl, slots_wf.2, lastSlotFree.1, lastSlotFree.2, by decide⟩
theorem witness_BootOnAFullLogErasesIt :
    let s : State := { bench .bootScan (oks 64) with med := slots 32 }
    s.events = [] ∧ s.fsm = .bootScan ∧ Memory.wf s.med = true ∧ LeadingEntries s.params s.med (payloadsA 32) ∧
      ChannelOk s 64 := ⟨rfl, rfl, slots_wf.1, fullLog, by decide⟩
/-- A reset that strikes, and the transition into `Write` by a line. -/
theorem witness_TransitionsAreThoseOfTheTable :
    let s := bench .write [.resetDuring]
    let u : State := { bench .userInput [] with inp := [0x77, 0x72, 0x69, 0x74, 0x65, 0x0A] }
    (BlockMoves s s ∧ step s = .next (stepped s) ∧ (stepped s).fsm = .bootScan) ∧
      BlockMoves u u ∧ step u = .next (stepped u) ∧ (stepped u).fsm = .write :=
  ⟨⟨.inl ⟨rfl, rfl⟩, rfl, by decide⟩, .inl ⟨rfl, rfl⟩, rfl, by decide⟩
/-- The empty line, typed before the block has booted on a channel whose first read fails. -/
theorem witness_EveryFiniteInputIsWorkedOff :
    let s : State := { bench .bootScan (.fail :: oks 127) with inp := [0x0A] }
    s.events = [] ∧ ∀ j, j < 32 * (2 * s.inp.length + 2) → answerAt s j = .ok ∨ answerAt s j = .fail := by
  decide +kernel
/-- An illegal payload, and a read-back that has delivered an entry when it fails. -/
theorem witness_ErrorReportsOnceAndKeepsTheCursor :
    let s : State := { bench .read [.ok, .fail] with med := slots 2 }
    (opselOf .readall = some .readall ∧ exec .readall s = .next (ran .readall s) ∧
      (ran .readall s).result = .raised .channelFailure 64 ∧ (ran .readall s).yielded = [⟨[0x41], 0⟩]) ∧
    opselOf (.append []) = some .append ∧
      exec (.append []) (bench .write []) = .next (ran (.append []) (bench .write [])) ∧
      (ran (.append []) (bench .write [])).result = .raised .payloadInvalid 0 :=
  ⟨⟨rfl, rfl, by decide +kernel⟩, rfl, rfl, by decide⟩
theorem witness_EveryStepKeepsTheInvariant :
    let s := bench .bootScan (oks 1)
    s.Inv ∧ step s = .next (stepped s) := by
  refine ⟨⟨by decide, by decide, by decide, ?_, ?_⟩, rfl⟩ <;> intro x h <;> cases h
theorem witness_OnlyTheNamedWritersWrite :
    exec .readall (bench .read [.resetBefore]) = .next (ran .readall (bench .read [.resetBefore])) := rfl
theorem witness_ReportsOnlyGrowUntilReset :
    step (bench .bootScan (oks 1)) = .next (stepped (bench .bootScan (oks 1))) := rfl
theorem witness_ReportsAndTraceAreNeverRead :
    let s := bench .bootScan (oks 1)
    let s' : State := { s with out := [.bootMsg], trace := [.read 0 64 .ok] }
    s.unobserved = s'.unobserved ∧ s ≠ s' ∧ step s = .next (stepped s) := ⟨rfl, by decide, rfl⟩
/-- The last byte of the Medium. -/
theorem witness_MediumReadAfterWrite : Memory.wf [(2047, 0x01)] = true ∧ 2047 + ([0x00] : List Byte).length ≤ 2048 := by
  decide
theorem witness_MediumFormIsCanonical :
    Memory.wf (Memory.write [(5, 0x01)] 5 0x00) = true ∧ Memory.wf [] = true ∧
      Memory.write [(5, 0x01)] 5 0x00 = [] := by decide

end Sys2Proof.Tests
end

