-- ==== Sys2Proof/Proofs/Checksum.lean ====
section
/-! PROOFS. The Checksum Engine: sealing (40_checksum.md section 2). -/

namespace Sys2Proof.Machine

/-- The meaning `exec` gives `CRC16` (R80). -/
theorem exec_crc16_eq (bytes : List Byte) (s : State) :
    exec (.crc16 bytes) s = .next { s with crcAcc := crc16 bytes, result := .checksum (crc16 bytes) } := rfl

theorem crc16_append (d e : List Byte) : crc16 (d ++ e) = crcFrom (crc16 d) e := crcFrom_append 0xFFFF d e

/-- The accumulator's own two bytes, high byte first, clear it: each step meets its own high byte, so it shifts by a byte
and projects zero. -/
theorem crcFrom_be16 (c : Half) : crcFrom c (be16 c) = 0 := by
  calc crcFrom c (be16 c)
      = crcStep (crcStep c (hi8 c)) (lo8 c) := rfl
    _ = crcStep (c <<< 8) (hi8 (c <<< 8)) := by rw [crcStep_hi8, hi8_shift]
    _ = (c <<< 8) <<< 8 := crcStep_hi8 _
    _ = c <<< (8 + 8) := (BitVec.shiftLeft_add c 8 8).symm
    _ = 0 := BitVec.shiftLeft_eq_zero le_rfl

/-- Sealing (R83), on the checksum function. -/
theorem crc16_append_be16 (d : List Byte) : crc16 (d ++ be16 (crc16 d)) = 0 := by
  rw [crc16_append, crcFrom_be16]

end Sys2Proof.Machine

namespace Sys2Proof.Claims
open Sys2Proof Sys2Proof.Machine

/-- Settles O10: the loop over `d` ends at `crc16 d`, and its own two bytes clear that value. -/
theorem checksumIsSelfSealing : Obligations.ChecksumIsSelfSealing := by
  intro d s
  have sealed_zero : crc16 (d ++ [(crc16 d).extractLsb' 8 8, (crc16 d).extractLsb' 0 8]) = 0 := crc16_append_be16 d
  rw [exec_crc16_eq, sealed_zero]

end Sys2Proof.Claims
end

