-- ==== Sys2Proof/Proofs/SlotCodec.lean ====
section
/-! PROOFS. The Slot Codec: the validity of a slot image (41_slot_codec.md R96). -/

namespace Sys2Proof.Machine

/-- Two bytes clear the accumulator only if they are its own (R84): the second byte has to meet the high byte of the step
before, which then shifts to zero, so that step left a zero low byte and met its own high byte too. -/
theorem crcFrom_pair_eq_zero {c : Half} {h l : Byte} : crcFrom c [h, l] = 0 ↔ h = hi8 c ∧ l = lo8 c := by
  constructor
  · intro hz
    change crcStep (crcStep c h) l = 0 at hz
    have hl : l = hi8 (crcStep c h) := lo8_crcStep_eq_zero.mp (by rw [hz]; rfl)
    have shifted_out : crcStep c h <<< 8 = 0 := by rw [← crcStep_hi8, ← hl, hz]
    have hh : h = hi8 c := lo8_crcStep_eq_zero.mp (by rw [← hi8_shift, shifted_out]; rfl)
    exact ⟨hh, by rw [hl, hh, crcStep_hi8, hi8_shift]⟩
  · rintro ⟨rfl, rfl⟩
    exact crcFrom_be16 c

/-- Test (c) of R97 byte by byte: a span is sealed exactly when its last two bytes are the checksum of the bytes before. -/
theorem crc16_take_eq_zero {image : List Byte} {t : Nat} (hlen : t + 3 ≤ image.length) :
    crc16 (image.take (t + 3)) = 0 ↔
      image[t + 1]? = some (hi8 (crc16 (image.take (t + 1)))) ∧
        image[t + 2]? = some (lo8 (crc16 (image.take (t + 1)))) := by
  have split_span : image.take (t + 3) = image.take (t + 1) ++ [image[t + 1], image[t + 2]] := by
    rw [List.take_succ_eq_append_getElem (by omega), List.take_succ_eq_append_getElem (by omega), List.append_assoc]
    rfl
  rw [split_span, crc16_append, crcFrom_pair_eq_zero, List.getElem?_eq_getElem (by omega),
    List.getElem?_eq_getElem (by omega), Option.some.injEq, Option.some.injEq]

/-- Test (a) of R97 as a condition on index 0. -/
theorem headD_ne_terminator_iff {image : List Byte} (hne : image ≠ []) :
    image.headD Config.terminator ≠ Config.terminator ↔ image[0]? ≠ some Config.terminator := by
  cases image with
  | nil => exact absurd rfl hne
  | cons b bs => simp

/-- The terminator of a span is not the first byte, by test (a). -/
theorem frameSpan_pos {limit : Nat} {image : List Byte} {t : Nat} (h : frameSpan limit image = some t) : 1 ≤ t := by
  obtain ⟨hhead, -, hterm, -, -⟩ := frameSpan_eq_some.mp h
  rw [headD_ne_terminator_iff (by rintro rfl; simp at hterm)] at hhead
  rcases t with _ | t
  · exact absurd hterm hhead
  · omega

/-- The search sees nothing behind the terminator it finds. -/
theorem frameSpan_of_agree {limit : Nat} {image image' : List Byte} {t : Nat} (h : frameSpan limit image = some t)
    (agree : ∀ j ≤ t, image'[j]? = image[j]?) : frameSpan limit image' = some t := by
  obtain ⟨hhead, hlim, hterm, hleast, hspan⟩ := frameSpan_eq_some.mp h
  have same_head : image'.headD Config.terminator = image.headD Config.terminator := by
    rw [List.headD_eq_head?_getD, List.headD_eq_head?_getD, List.head?_eq_getElem?, List.head?_eq_getElem?,
      agree 0 (Nat.zero_le t)]
  exact frameSpan_eq_some.mpr ⟨same_head ▸ hhead, hlim, (agree t le_rfl).trans hterm,
    fun j hj => agree j hj.le ▸ hleast j hj, hspan⟩

/-- A slot is valid exactly when it has a span and the span is sealed. -/
theorem slotPayload_isSome_iff {limit : Nat} {image : List Byte} :
    (slotPayload limit image).isSome = true ↔
      ∃ t, frameSpan limit image = some t ∧ crc16 (image.take (t + 3)) = 0 := by
  simp [Option.isSome_iff_exists, slotPayload_eq_some]

/-- The entry an image holds stays when the bytes behind a terminator and its checksum bytes change: the least terminator
stands no later. -/
theorem slotPayload_of_agree {limit t : Nat} {image image' p : List Byte} (hterm : image[t]? = some Config.terminator)
    (agree : image'.take (t + 3) = image.take (t + 3)) (h : slotPayload limit image = some p) :
    slotPayload limit image' = some p := by
  obtain ⟨u, hspan, hseal, hp⟩ := slotPayload_eq_some.mp h
  obtain ⟨-, -, -, hleast, -⟩ := frameSpan_eq_some.mp hspan
  have hut : u ≤ t := by
    by_contra hlt
    exact hleast t (by omega) hterm
  have agree_take : ∀ n ≤ t + 3, image'.take n = image.take n := fun n hn => by
    simpa [List.take_take, hn] using congrArg (List.take n) agree
  have agree_at : ∀ j ≤ u, image'[j]? = image[j]? := fun j hj => by
    simpa [List.getElem?_take, show j < t + 3 by omega] using congrArg (·[j]?) agree
  refine slotPayload_eq_some.mpr ⟨u, frameSpan_of_agree hspan agree_at, ?_, ?_⟩
  · rw [agree_take (u + 3) (by omega), hseal]
  · rw [hp, agree_take u (by omega)]

/-- Two images that agree up to the checksum bytes of a terminator hold the same entry, or both hold none. -/
theorem slotPayload_congr {limit t : Nat} {image image' : List Byte} (hterm : image[t]? = some Config.terminator)
    (agree : image'.take (t + 3) = image.take (t + 3)) : slotPayload limit image' = slotPayload limit image := by
  have hterm' : image'[t]? = some Config.terminator := by
    rw [← hterm]
    simpa [List.getElem?_take] using congrArg (·[t]?) agree
  exact Option.ext fun p => ⟨slotPayload_of_agree hterm' agree.symm, slotPayload_of_agree hterm agree⟩

end Sys2Proof.Machine

namespace Sys2Proof.Claims
open Sys2Proof Sys2Proof.Machine

/-- Settles O16: the verdict is a sealed span, the span is tests (a), (b) and (s), and only a span's own two checksum bytes
seal it. -/
theorem validityIsTheThreeConditions : Obligations.ValidityIsTheThreeConditions := by
  intro limit image hlen
  have nonempty : image ≠ [] := List.ne_nil_of_length_pos (by omega)
  refine ⟨slotPayload_isSome_iff.trans (exists_congr fun t => ?_), fun t ht => crc16_take_eq_zero (by omega),
    fun t image' _ _ hterm agree => by rw [slotPayload_congr hterm agree], fun hlim t ht => by omega⟩
  constructor
  · rintro ⟨hspan, hseal⟩
    obtain ⟨hhead, hlim, hterm, hleast, hfits⟩ := frameSpan_eq_some.mp hspan
    exact ⟨(headD_ne_terminator_iff nonempty).mp hhead, frameSpan_pos hspan, hlim, hterm, hleast, hfits, hseal⟩
  · rintro ⟨hfirst, -, hlim, hterm, hleast, hfits, hseal⟩
    exact ⟨frameSpan_eq_some.mpr ⟨(headD_ne_terminator_iff nonempty).mpr hfirst, hlim, hterm, hleast, hfits⟩, hseal⟩

end Sys2Proof.Claims
end

