-- ==== Sys2Proof/Proofs/EraseStep.lean ====
section
/-! PROOFS. The `Erase` step: ERASEALL on a channel that answers and on one that fails, and what the sequencer does with
either end (42_log_engine.md R112, R113; 43_command_fsm.md R130). -/

namespace Sys2Proof.Machine

/-- The meaning `exec` gives `ERASEALL` (R112). -/
theorem exec_eraseall_eq (s : State) :
    exec .eraseall s = .next (complete .eraseall (fun _ => .ok) (eraseOver slotOffsets s)) := rfl

/-- The block in `Erase` runs ERASEALL, and the sequencer takes over from the state it leaves (R130). -/
theorem step_of_erase {s u : State} (hmoves : BlockMoves s u) (hfsm : u.fsm = .erase) :
    step s = .next (afterOk (complete .eraseall (fun _ => .ok) (eraseOver slotOffsets u))) := by
  rw [step_blockMoves hmoves, blockStep, hfsm]
  rfl

/-- The sequencer leaves `Erase` or `Write` for `UserInput` when the operation returned `Ok`. -/
theorem afterOk_of_ok {s : State} (h : s.result = .ok) : afterOk s = { s with fsm := .userInput } := by
  simp only [afterOk, h]

/-- The sequencer adds nothing to a taken error (R158). -/
theorem afterOk_raise (op : OpSel) (kind : ErrKind) (info : Nat) (s : State) :
    afterOk (s.raise op kind info) = s.raise op kind info := rfl

/-- An erase whose writes all succeed ends normally, with the cursor at 0 (R112). -/
theorem eraseOver_of_channelOk {offs : List Offset} {s : State} (hok : ChannelOk s offs.length) :
    ∃ t, eraseOver offs s = (.done (), { t with cursor := 0 }) ∧ StoreOnly s t := by
  obtain ⟨so, h⟩ := eraseOver_ok [] offs s hok
  rw [List.append_nil] at h
  exact ⟨_, h, rfl, rfl, rfl, rfl, rfl, rfl, rfl, rfl, rfl⟩

/-- An erase whose write at `off` fails, the writes before it successful, raises `ChannelFailure` there (R113). -/
theorem eraseOver_of_channelThen_fail {as rest : List Offset} {off : Offset} {s : State}
    (h : ChannelThen s as.length .fail) :
    ∃ t, eraseOver (as ++ off :: rest) s = (.raised .channelFailure off.toNat, t) ∧ StoreOnly s t := by
  obtain ⟨hok, hfail⟩ := h
  obtain ⟨so, hlead⟩ := eraseOver_ok (off :: rest) as s hok
  rw [hlead, eraseOver, memWrite_fail]
  · exact ⟨_, rfl, rfl, rfl, rfl, rfl, rfl, rfl, rfl, rfl, rfl⟩
  · exact (answerAt_spent s as.length 0).trans hfail

/-- ERASEALL's write at slot `k` fails: the error carries that slot's offset. -/
theorem eraseOver_slotOffsets_fail {k : Nat} {s : State} (hk : k < 32) (h : ChannelThen s k .fail) :
    ∃ t, eraseOver slotOffsets s = (.raised .channelFailure (k * 64), t) ∧ StoreOnly s t := by
  have hlen : ((List.range k).map slotOffset).length = k := by simp
  rw [slotOffsets_split hk, ← slotOffset_toNat (show k ≤ 32 by omega)]
  exact eraseOver_of_channelThen_fail (hlen.symm ▸ h)

end Sys2Proof.Machine

namespace Sys2Proof.Claims
open Sys2Proof Sys2Proof.Machine

/-- Settles O45: ERASEALL ends normally or raises at slot `k`, and in neither case writes a report of its own; the sequencer
goes to `UserInput` after the normal end, and taking the error does so otherwise. -/
theorem eraseStepRunsEraseall : Obligations.EraseStepRunsEraseall := by
  intro s u hmoves hfsm
  constructor
  · intro hok
    obtain ⟨t, herase, hstore⟩ := eraseOver_of_channelOk (offs := slotOffsets) hok
    refine ⟨{ t with cursor := 0, result := .ok }, ?_, rfl, ?_, hstore.out⟩
    · rw [exec_eraseall_eq, herase, complete]
    · rw [step_of_erase hmoves hfsm, herase, complete, afterOk_of_ok rfl]
  · intro k hk hfail
    obtain ⟨t, herase, hstore⟩ := eraseOver_slotOffsets_fail hk hfail
    refine ⟨t.raise .eraseall .channelFailure (k * 64), ?_, ?_, raise_fsm .., ?_⟩
    · rw [step_of_erase hmoves hfsm, herase, complete, afterOk_raise]
    · rw [raise_out, hstore.out]
    · rw [raise_cursor, hstore.cursor]

end Sys2Proof.Claims
end

