-- ==== Sys2Proof/Proofs/Encoding.lean ====
section
/-! PROOFS. From bits to instructions and back: lines by exact match, calls by their `OPSEL` (30_encoding.md sections 2, 3
and 6). -/

namespace Sys2Proof

/-- A terminated line decodes to what its content is. -/
theorem decode_terminated {line : List Byte} (h : Config.newline ∉ line) :
    decode (.line (line ++ [Config.newline])) = .ok (decodeLine line) := by
  simp only [decode, splitLine_append h]

/-- The lines that decode are exactly those with one terminator, at the end. -/
theorem decode_line_eq_ok {bytes : List Byte} {i : Instr} :
    decode (.line bytes) = .ok i ↔
      ∃ line, Config.newline ∉ line ∧ bytes = line ++ [Config.newline] ∧ i = decodeLine line := by
  constructor
  · intro h
    simp only [decode] at h
    split at h
    · cases h
    · rename_i line hsplit
      obtain ⟨hbytes, hline⟩ := splitLine_some hsplit
      cases h
      exact ⟨line, hline, hbytes, rfl⟩
    · cases h
  · rintro ⟨line, hline, rfl, rfl⟩
    exact decode_terminated hline

/-- The conditions on an unrecognised line's content, one by one (R68). -/
theorem lineWellFormed_iff {line : List Byte} :
    Instr.lineWellFormed line = true ↔ Config.newline ∉ line ∧
      line ≠ [] ∧ line ≠ Config.eraseWord ∧ line ≠ Config.writeWord ∧ line ≠ Config.readWord := by
  simp only [Instr.lineWellFormed, Bool.and_eq_true, Bool.not_eq_true', bne_iff_ne, List.isEmpty_eq_false_iff,
    List.contains_eq_mem, decide_eq_false_iff_not]
  tauto

/-- A content that is neither empty nor a command word decodes to itself. -/
theorem decodeLine_unrecognised {line : List Byte} (h : line ≠ [] ∧ line ≠ Config.eraseWord ∧
    line ≠ Config.writeWord ∧ line ≠ Config.readWord) : decodeLine line = .unrecognisedLine line := by
  obtain ⟨hempty, herase, hwrite, hread⟩ := h
  simp only [decodeLine, if_neg hempty, if_neg herase, if_neg hwrite, if_neg hread]

/-- What a content decodes to is well formed and is encoded by that content and the terminator. -/
theorem encode_decodeLine {line : List Byte} (h : Config.newline ∉ line) :
    (decodeLine line).wellFormed = true ∧ encode (decodeLine line) = .line (line ++ [Config.newline]) := by
  rcases decodeLine_cases line with ⟨rfl, hi⟩ | ⟨rfl, hi⟩ | ⟨rfl, hi⟩ | ⟨rfl, hi⟩ | ⟨hother, hi⟩ <;> rw [hi]
  case inr.inr.inr.inr => exact ⟨lineWellFormed_iff.mpr ⟨h, hother⟩, rfl⟩
  all_goals exact ⟨rfl, rfl⟩

/-- `OPSEL` codes select their own operation (R69). -/
theorem ofCode_code (op : OpSel) : OpSel.ofCode ((BitVec.ofNat 8 op.code).toNat % 16) = some op := by
  cases op <;> rfl

/-- The codes no operation has (R69). -/
theorem ofCode_eq_none {n : Nat} (h : n = 0 ∨ 8 ≤ n) : OpSel.ofCode n = none := by
  unfold OpSel.ofCode
  split
  case h_8 => rfl
  all_goals omega

/-- A call built from an operation and its operand decodes by the operation's own rule. -/
theorem decode_callBytes (op : OpSel) (operand : List Byte) :
    decode (.call (callBytes op operand)) = decodeOperand op operand := by
  simp only [decode, callBytes, decodeCall, ofCode_code]

/-- A call whose `OPSEL` is unassigned is no instruction. -/
theorem decode_call_unassigned {b : Byte} (operand : List Byte) (h : b.toNat % 16 = 0 ∨ 8 ≤ b.toNat % 16) :
    decode (.call (b :: operand)) = .error (.unassignedOpsel (b.toNat % 16)) := by
  simp only [decode, decodeCall, ofCode_eq_none h]

namespace Machine

/-- The bench's call at the head of the events is what the step runs. -/
theorem step_call {s : State} {bytes : List Byte} {rest : List Event} (h : s.events = .call bytes :: rest) :
    step s = benchStep bytes { s with events := rest } := by
  simp only [step, wholeStep, h]

theorem benchStep_of_decode {bytes : List Byte} {i : Instr} (h : decode (.call bytes) = .ok i) (s : State) :
    benchStep bytes s = exec i s := by
  simp only [benchStep, h]

theorem benchStep_of_undefined {bytes : List Byte} {why : DecodeError} (h : decode (.call bytes) = .error why)
    (s : State) : benchStep bytes s = .refused (.undefinedCall why) := by
  simp only [benchStep, h]

end Machine

end Sys2Proof

namespace Sys2Proof.Claims
open Sys2Proof Sys2Proof.Machine

/-- Settles O1: a command's line is its content and one terminator, which decodes by exact match; an operation's call
carries its own `OPSEL`. -/
theorem decodeOfEncodeIsTheInstruction : Obligations.DecodeOfEncodeIsTheInstruction := by
  intro i hwf
  cases i with
  | reset => rfl
  | erase => exact decode_terminated (line := Config.eraseWord) (by decide)
  | write => exact decode_terminated (line := Config.writeWord) (by decide)
  | read => exact decode_terminated (line := Config.readWord) (by decide)
  | emptyLine => exact decode_terminated (line := []) (by decide)
  | unrecognisedLine line =>
    obtain ⟨hnewline, hother⟩ := lineWellFormed_iff.mp hwf
    exact (decode_terminated hnewline).trans (congrArg _ (decodeLine_unrecognised hother))
  | crc16 bytes => exact decode_callBytes .crc16 bytes
  | encode payload => exact decode_callBytes .encode payload
  | decode image =>
    have hlen : image.length = Config.slotSize := by simpa [Instr.wellFormed, Instr.imageWellFormed] using hwf
    exact (decode_callBytes .decode image).trans (if_pos hlen)
  | bootscan => exact decode_callBytes .bootscan []
  | append payload => exact decode_callBytes .append payload
  | eraseall => exact decode_callBytes .eraseall []
  | readall => exact decode_callBytes .readall []

/-- Settles O2: a line that decodes is one content and its terminator, and that content is encoded by that line. -/
theorem everyLineHasOneMeaning : Obligations.EveryLineHasOneMeaning := by
  intro bytes i h
  obtain ⟨line, hline, rfl, rfl⟩ := decode_line_eq_ok.mp h
  exact encode_decodeLine hline

/-- Settles O3: the four lines by their contents, the calls by their `OPSEL`. -/
theorem specWordsDecode : Obligations.SpecWordsDecode :=
  ⟨decode_terminated (line := Config.eraseWord) (by decide), decode_terminated (line := Config.writeWord) (by decide),
    decode_terminated (line := Config.readWord) (by decide), decode_terminated (line := []) (by decide),
    decode_terminated (line := [0x72, 0x65, 0x61, 0x64, 0x20]) (by decide), decode_callBytes .crc16 [0x31],
    decode_callBytes .bootscan [], decode_callBytes .eraseall []⟩

/-- Settles O4: no operation has the code, and the step names the bench call's fault. -/
theorem unassignedOpselIsRefused : Obligations.UnassignedOpselIsRefused := by
  intro s b operand rest hevents hcode
  have hdecode := decode_call_unassigned operand hcode
  exact ⟨hdecode, (step_call hevents).trans (benchStep_of_undefined hdecode _)⟩

end Sys2Proof.Claims
end

