-- ==== Sys2Proof/Proofs/ErrorDetection.lean ====
section
/-! PROOFS. The Checksum Engine: what changes a checksum, and the bit-serial code it equals (40_checksum.md section 2). -/

namespace Sys2Proof.Machine

/-- A checksum value is its high byte at the top and its low byte at the bottom. -/
theorem half_eq_bytes (c : Half) : c = (hi8 c).setWidth 16 <<< 8 ^^^ (lo8 c).setWidth 16 := by
  ext i hi
  rw [← BitVec.getLsbD_eq_getElem]
  by_cases h : i < 8
  · simp [hi8, lo8, h]
  · simp [hi8, lo8, h, Nat.add_sub_cancel' (show 8 ≤ i by omega), show i - 8 < 8 by omega]

theorem half_ext {c d : Half} (hhi : hi8 c = hi8 d) (hlo : lo8 c = lo8 d) : c = d := by
  rw [half_eq_bytes c, half_eq_bytes d, hhi, hlo]

/-- For a fixed byte, distinct accumulators give distinct results: the low byte fixes the mixed byte, so the high bytes
agree, and then the shifted parts do. -/
theorem crcStep_inj_acc {c d : Half} {b : Byte} (h : crcStep c b = crcStep d b) : c = d := by
  have mixed : hi8 c ^^^ b = hi8 d ^^^ b := crcProject_lo_inj (by rw [← lo8_crcStep, h, lo8_crcStep])
  have shifted : c <<< 8 = d <<< 8 := by
    rw [crcStep_eq, crcStep_eq, mixed] at h
    exact (BitVec.xor_left_inj _).mp h
  refine half_ext ((BitVec.xor_left_inj _).mp mixed) ?_
  rw [← hi8_shift, shifted, hi8_shift]

/-- The loop keeps accumulators apart. -/
theorem crcFrom_inj {bytes : List Byte} : ∀ {c d : Half}, crcFrom c bytes = crcFrom d bytes → c = d := by
  induction bytes with
  | nil => exact id
  | cons b bs ih => exact fun h => crcStep_inj_acc (ih h)

/-- One changed byte changes the checksum (R88). -/
theorem crc16_ne_of_byte_ne {x y : Byte} (a b : List Byte) (h : x ≠ y) : crc16 (a ++ x :: b) ≠ crc16 (a ++ y :: b) := by
  rw [crc16_append, crc16_append]
  exact fun heq => h (crcStep_inj_byte (crcFrom_inj heq))

/-- One changed byte changes the checksum, by its index. -/
theorem crc16_set_ne {bytes : List Byte} {k : Nat} {b : Byte} (hk : k < bytes.length) (h : bytes[k]? ≠ some b) :
    crc16 (bytes.set k b) ≠ crc16 bytes := by
  have hne : b ≠ bytes[k] := fun heq => h (by rw [heq, List.getElem?_eq_getElem hk])
  have around : bytes = bytes.take k ++ bytes[k] :: bytes.drop (k + 1) := by
    rw [← List.drop_eq_getElem_cons hk, List.take_append_drop]
  rw [List.set_eq_take_append_cons_drop, if_pos hk]
  conv_rhs => rw [around]
  exact crc16_ne_of_byte_ne _ _ hne

end Sys2Proof.Machine

namespace Sys2Proof.Claims
open Sys2Proof Sys2Proof.Machine

/-- A bit step is linear over exclusive or. -/
theorem bitStep_xor (x y : Half) : bitStep (x ^^^ y) = bitStep x ^^^ bitStep y := by
  simp only [bitStep, BitVec.msb_xor, BitVec.shiftLeft_xor_distrib]
  cases x.msb <;> cases y.msb
  · rfl
  · exact BitVec.xor_assoc ..
  · exact (BitVec.xor_assoc ..).trans ((congrArg _ (BitVec.xor_comm ..)).trans (BitVec.xor_assoc ..).symm)
  · refine Eq.symm ((xor_interchange ..).trans ?_)
    exact (congrArg _ BitVec.xor_self).trans BitVec.xor_zero

/-- So are several bit steps. -/
theorem bitStep_iterate_xor (n : Nat) (x y : Half) : bitStep^[n] (x ^^^ y) = bitStep^[n] x ^^^ bitStep^[n] y :=
  Function.Semiconj₂.iterate bitStep_xor n x y

/-- Eight bit steps on a byte at the top give its three projections: the table entry of that byte (R86). -/
theorem bitStep_iterate_top : ∀ x : Byte, bitStep^[8] (x.setWidth 16 <<< 8) = crcProject x := by decide +kernel

/-- Eight bit steps on a byte at the bottom never feed back. -/
theorem bitStep_iterate_bottom : ∀ x : Byte, bitStep^[8] (x.setWidth 16) = x.setWidth 16 <<< 8 := by decide +kernel

/-- The input byte meets the high byte of the accumulator; the low byte stands beside it. -/
theorem acc_xor_byte (c : Half) (b : Byte) :
    c ^^^ (b.setWidth 16 <<< 8) = (hi8 c ^^^ b).setWidth 16 <<< 8 ^^^ (lo8 c).setWidth 16 := by
  conv_lhs => rw [half_eq_bytes c]
  rw [BitVec.setWidth_xor, BitVec.shiftLeft_xor_distrib, BitVec.xor_assoc, BitVec.xor_assoc,
    BitVec.xor_comm ((lo8 c).setWidth 16)]

/-- A shift by a byte sees the low byte only. -/
theorem lo8_setWidth_shift (c : Half) : (lo8 c).setWidth 16 <<< 8 = c <<< 8 := by
  conv_rhs => rw [half_eq_bytes c, BitVec.shiftLeft_xor_distrib, ← BitVec.shiftLeft_add,
    BitVec.shiftLeft_eq_zero le_rfl]
  exact (BitVec.zero_xor).symm

/-- One byte of the bit-serial code is one table-free step (R86). -/
theorem bitSerialByte_eq_crcStep (c : Half) (b : Byte) : bitSerialByte c b = crcStep c b := by
  calc bitSerialByte c b
      = bitStep^[8] ((hi8 c ^^^ b).setWidth 16 <<< 8 ^^^ (lo8 c).setWidth 16) := by rw [bitSerialByte, acc_xor_byte]
    _ = crcProject (hi8 c ^^^ b) ^^^ (lo8 c).setWidth 16 <<< 8 := by
        rw [bitStep_iterate_xor, bitStep_iterate_top, bitStep_iterate_bottom]
    _ = crcStep c b := by rw [lo8_setWidth_shift, BitVec.xor_comm, crcStep_eq]

/-- Settles O9: the loop is a fold, so it continues where the first sequence ended; the values are R80's and R82's. -/
theorem crc16FoldsTheBytesInOrder : Obligations.Crc16FoldsTheBytesInOrder := by
  intro a b s
  refine ⟨?_, by decide, by decide, by decide, by decide⟩
  rw [exec_crc16_eq, crc16_append, crcFrom]

/-- Settles O11: after `d` the loop stands at `crc16 d`, and two bytes clear it only if they are its own. -/
theorem onlyTheOwnChecksumSeals : Obligations.OnlyTheOwnChecksumSeals := by
  intro d h l
  rw [crc16_append]
  exact crcFrom_pair_eq_zero

/-- Settles O12: injective on a finite type is bijective, and the loop keeps the accumulators apart after the byte that
differs. -/
theorem checksumDetectsOneChangedByte : Obligations.ChecksumDetectsOneChangedByte :=
  ⟨fun _ => Finite.injective_iff_bijective.mp fun _ _ => crcStep_inj_acc, fun _ _ _ => crcStep_inj_byte,
    fun a b _ _ => crc16_ne_of_byte_ne a b⟩

/-- Settles O13: the two codes agree byte by byte. -/
theorem checksumIsTheBitSerialCode : Obligations.ChecksumIsTheBitSerialCode := by
  refine ⟨fun bytes => ?_, by decide⟩
  have same_step : bitSerialByte = crcStep := funext fun c => funext (bitSerialByte_eq_crcStep c)
  rw [same_step]
  rfl

end Sys2Proof.Claims
end

