-- ==== Sys2Proof/Proofs/Frames.lean ====
section
/-! PROOFS. ENCODE and DECODE: frames, their round trip, and the validity rule (41_slot_codec.md sections 3 and 4). -/

namespace Sys2Proof.Machine

/-- The meaning `exec` gives `ENCODE` (R94, R95). -/
theorem exec_encode_eq (p : List Byte) (s : State) :
    exec (.encode p) s = .next (complete .encode .frame (encodeSlot p s)) := rfl

/-- The meaning `exec` gives `DECODE`, with the accumulator left open (R97). -/
theorem exec_decode_eq (image : List Byte) (s : State) :
    ∃ c, exec (.decode image) s =
      .next { s with crcAcc := c, result := .decoded (slotPayload s.params.limit image) } := ⟨_, rfl⟩

/-- The payloads `ENCODE` refuses. -/
theorem legalPayload_eq_false {p : List Byte} :
    legalPayload p = false ↔ p = [] ∨ 60 < p.length ∨ Config.terminator ∈ p := by
  rw [← Bool.not_eq_true, legalPayload_iff, ← List.length_eq_zero_iff, Config.payloadMax]
  constructor
  · intro h
    by_contra hlegal
    simp only [not_or] at hlegal
    obtain ⟨hpos, hmax, hzero⟩ := hlegal
    exact h ⟨by omega, by omega, hzero⟩
  · rintro (hempty | hlong | hmem) ⟨hpos, hmax, hzero⟩
    · omega
    · omega
    · exact hzero hmem

/-- `ENCODE` of a legal payload builds its frame at the start of `SLOTBUF` (R94). -/
theorem encodeSlot_legal {p : List Byte} (h : legalPayload p = true) (s : State) :
    encodeSlot p s = (.done (frameOf p), { s with
      slotbuf := frameOf p ++ s.slotbuf.drop (p.length + 3)
      crcAcc := crc16 (p ++ [Config.terminator]) }) := by
  rw [encodeSlot, if_pos h, length_frameOf]

theorem exec_encode_legal {p : List Byte} (h : legalPayload p = true) (s : State) :
    exec (.encode p) s = .next { s with
      slotbuf := frameOf p ++ s.slotbuf.drop (p.length + 3)
      crcAcc := crc16 (p ++ [Config.terminator])
      result := .frame (frameOf p) } := by
  rw [exec_encode_eq, encodeSlot_legal h]
  rfl

/-- `ENCODE` of an illegal payload raises `PayloadInvalid` and writes nothing (R95). -/
theorem encodeSlot_illegal {p : List Byte} (h : legalPayload p = false) (s : State) :
    encodeSlot p s = (.raised .payloadInvalid p.length, s) := by
  rw [encodeSlot, if_neg (by simp [h])]

/-- A frame is its payload, the terminator and the two checksum bytes. -/
theorem frameOf_eq (p : List Byte) : frameOf p = p ++ [0x00, hi8 (crc16 (p ++ [0x00])), lo8 (crc16 (p ++ [0x00]))] := by
  simp [frameOf, be16]

/-- A frame is sealed (R83). -/
theorem crc16_frameOf (p : List Byte) : crc16 (frameOf p) = 0 := crc16_append_be16 _

/-- The terminator of a frame stands behind the payload. -/
theorem frameOf_getElem?_length (p : List Byte) : (frameOf p)[p.length]? = some Config.terminator := by
  simp [frameOf]

/-- Before the terminator a frame holds its payload. -/
theorem frameOf_getElem?_of_lt {p : List Byte} {j : Nat} (h : j < p.length) : (frameOf p)[j]? = p[j]? := by
  rw [frameOf_eq, List.getElem?_append_left h]

theorem frameOf_take (p : List Byte) : (frameOf p).take p.length = p := by
  simp [frameOf]

/-- An index without the terminator holds another byte or none. -/
theorem getElem?_ne_terminator {p : List Byte} (h : Config.terminator ∉ p) (j : Nat) :
    p[j]? ≠ some Config.terminator := fun hj => h (List.mem_of_getElem? hj)

/-- Where the span of an image ends, when its bytes up to a terminator are known: `t` non-zero bytes, then the
terminator, with room for the checksum bytes. -/
theorem frameSpan_of_first {limit t : Nat} {image : List Byte} (hpos : 1 ≤ t) (hlim : t < limit)
    (hterm : image[t]? = some Config.terminator) (hfirst : ∀ j < t, image[j]? ≠ some Config.terminator)
    (hfits : t + 3 ≤ 64) : frameSpan limit image = some t := by
  have nonempty : image ≠ [] := by rintro rfl; simp at hterm
  exact frameSpan_eq_some.mpr
    ⟨(headD_ne_terminator_iff nonempty).mpr (hfirst 0 hpos), hlim, hterm, hfirst, hfits⟩

/-- Decoding looks at the frame alone: a legal payload's frame holds it, whatever follows (R99, R100). -/
theorem slotPayload_frameOf_append {limit : Nat} {p : List Byte} (hlegal : legalPayload p = true) (hlim : 61 ≤ limit)
    (trailing : List Byte) : slotPayload limit (frameOf p ++ trailing) = some p := by
  obtain ⟨hpos, hmax, hzero⟩ := legalPayload_iff.mp hlegal
  rw [Config.payloadMax] at hmax
  have inside : ∀ j ≤ p.length, (frameOf p ++ trailing)[j]? = (frameOf p)[j]? := fun j hj =>
    List.getElem?_append_left (by rw [length_frameOf]; omega)
  have span : frameSpan limit (frameOf p ++ trailing) = some p.length := by
    refine frameSpan_of_first hpos (by omega) ?_ (fun j hj => ?_) (by omega)
    · rw [inside _ le_rfl, frameOf_getElem?_length]
    · rw [inside _ hj.le, frameOf_getElem?_of_lt hj]
      exact getElem?_ne_terminator hzero j
  refine slotPayload_eq_some.mpr ⟨p.length, span, ?_, ?_⟩
  · rw [List.take_left' (length_frameOf p), crc16_frameOf]
  · rw [List.take_append_of_le_length (by rw [length_frameOf]; omega), frameOf_take]

/-- What an image with an entry begins with: the entry's frame. -/
theorem take_eq_frameOf {limit : Nat} {image p : List Byte} (hlen : image.length = 64)
    (h : slotPayload limit image = some p) : image.take (p.length + 3) = frameOf p := by
  obtain ⟨t, hspan, hseal, rfl⟩ := slotPayload_eq_some.mp h
  obtain ⟨-, -, hterm, -, hfits⟩ := frameSpan_eq_some.mp hspan
  have ht : t + 3 ≤ image.length := by rw [hlen]; exact hfits
  have payload_length : (image.take t).length = t := by simp; omega
  have up_to_terminator : image.take (t + 1) = image.take t ++ [Config.terminator] := by
    rw [List.take_succ_eq_append_getElem (by omega), (List.getElem?_eq_some_iff.mp hterm).2]
  obtain ⟨hhi, hlo⟩ := (crc16_take_eq_zero ht).mp hseal
  rw [payload_length, frameOf, ← up_to_terminator, be16,
    ← (List.getElem?_eq_some_iff.mp hhi).2, ← (List.getElem?_eq_some_iff.mp hlo).2,
    List.take_succ_eq_append_getElem (by omega), List.take_succ_eq_append_getElem (by omega), List.append_assoc]
  rfl

/-- An image with an entry has its terminator behind the payload, within the search window. -/
theorem slotPayload_terminator {limit : Nat} {image p : List Byte} (h : slotPayload limit image = some p) :
    p.length < limit ∧ image[p.length]? = some Config.terminator := by
  obtain ⟨t, hspan, -, rfl⟩ := slotPayload_eq_some.mp h
  obtain ⟨-, hlim, hterm, -, -⟩ := frameSpan_eq_some.mp hspan
  have payload_length : (image.take t).length = t := by
    have := (List.getElem?_eq_some_iff.mp hterm).1
    simp; omega
  rw [payload_length]
  exact ⟨hlim, hterm⟩

/-- Bytes that hold no terminator before `t`, one at `t`, and are not sealed up to `t + 3` are no entry. -/
theorem slotPayload_eq_none_of_unsealed {limit t : Nat} {image : List Byte}
    (hterm : image[t]? = some Config.terminator) (hfirst : ∀ j < t, image[j]? ≠ some Config.terminator)
    (hunsealed : crc16 (image.take (t + 3)) ≠ 0) : slotPayload limit image = none := by
  refine Option.eq_none_iff_forall_ne_some.mpr fun p hp => ?_
  obtain ⟨u, hspan, hseal, -⟩ := slotPayload_eq_some.mp hp
  obtain ⟨-, -, hu, hleast, -⟩ := frameSpan_eq_some.mp hspan
  rcases lt_trichotomy u t with hlt | rfl | hlt
  · exact hfirst u hlt hu
  · exact hunsealed hseal
  · exact hleast t hlt hterm

end Sys2Proof.Machine

namespace Sys2Proof.Claims
open Sys2Proof Sys2Proof.Machine

/-- The validity rule of R96 is the decoder's verdict. -/
theorem valid_iff_slotPayload {limit : Nat} {image p : List Byte} (hlen : image.length = 64) :
    Valid limit image p ↔ slotPayload limit image = some p := by
  have nonempty : image ≠ [] := List.ne_nil_of_length_pos (by omega)
  rw [slotPayload_eq_some]
  refine exists_congr fun t => ?_
  rw [frameSpan_eq_some, headD_ne_terminator_iff nonempty]
  tauto

/-- Settles O14: a payload of 1 to 60 non-zero bytes is legal, so ENCODE builds its frame. -/
theorem encodeBuildsTheFrame : Obligations.EncodeBuildsTheFrame := by
  intro p s hpos hmax hzero
  rw [exec_encode_legal (legalPayload_iff.mpr ⟨hpos, hmax, hzero⟩), frameOf_eq]
  rfl

/-- Settles O15: the three ways to be illegal are the failures of the legality test. -/
theorem encodeRefusesAnIllegalPayload : Obligations.EncodeRefusesAnIllegalPayload := by
  intro p s hillegal
  rw [exec_encode_eq, encodeSlot_illegal (legalPayload_eq_false.mpr hillegal)]
  rfl

/-- Settles O17: the verdict is the validity rule, and it does not look behind the frame. -/
theorem decodeJudgesByTheValidityRule : Obligations.DecodeJudgesByTheValidityRule := by
  intro image s hlen
  obtain ⟨c, hexec⟩ := exec_decode_eq image s
  refine ⟨c, _, hexec, fun p => (valid_iff_slotPayload hlen).symm, fun p image' hp hlen' agree => ?_, ?_, ?_⟩
  · exact (valid_iff_slotPayload hlen').mpr (slotPayload_of_agree (slotPayload_terminator hp).2 agree hp)
  · have := Params.limit_bounds s.params
    omega
  · have := Params.limit_bounds s.params
    omega

/-- Settles O18: ENCODE answers the frame, and DECODE looks at the frame alone. -/
theorem frameDecodesWhateverFollows : Obligations.FrameDecodesWhateverFollows := by
  intro p trailing s u hpos hmax hzero _
  have hlegal : legalPayload p = true := legalPayload_iff.mpr ⟨hpos, hmax, hzero⟩
  obtain ⟨c, hdecode⟩ := exec_decode_eq (frameOf p ++ trailing) u
  rw [slotPayload_frameOf_append hlegal (Params.limit_bounds u.params).1] at hdecode
  exact ⟨frameOf p, _, _, exec_encode_legal hlegal s, rfl, hdecode, rfl⟩

/-- Settles O19: a decoded payload that is not too long is legal, and the image begins with its frame. -/
theorem decodedPayloadEncodesToItsFrame : Obligations.DecodedPayloadEncodesToItsFrame := by
  intro image p s s' u hlen hdecode hresult hmax
  obtain ⟨c, hexec⟩ := exec_decode_eq image s
  rw [hexec] at hdecode
  cases hdecode
  have hentry : slotPayload s.params.limit image = some p := by simpa using hresult
  obtain ⟨hpos, -, hzero⟩ := slotPayload_sound hentry
  rw [take_eq_frameOf hlen hentry]
  exact ⟨_, exec_encode_legal (legalPayload_iff.mpr ⟨hpos, hmax, hzero⟩) u, rfl⟩

/-- Settles O20: the terminator still stands behind the payload, so the span is the changed frame, and one changed byte
changes the checksum of the sealed frame. -/
theorem oneChangedFrameByteIsNotDecoded : Obligations.OneChangedFrameByteIsNotDecoded := by
  intro p trailing k b s _ _ hzero _ hk hkt hchanged hnonzero
  obtain ⟨c, hexec⟩ := exec_decode_eq ((frameOf p).set k b ++ trailing) s
  refine ⟨c, ?_⟩
  have changed_length : ((frameOf p).set k b).length = p.length + 3 := by simp
  have inside : ∀ j ≤ p.length, ((frameOf p).set k b ++ trailing)[j]? = ((frameOf p).set k b)[j]? := fun j hj =>
    List.getElem?_append_left (by omega)
  rw [hexec, slotPayload_eq_none_of_unsealed (t := p.length)]
  · rw [inside _ le_rfl, List.getElem?_set_ne hkt, frameOf_getElem?_length]
  · intro j hj
    rw [inside _ hj.le, List.getElem?_set]
    split
    · rename_i hjk
      subst hjk
      simpa [length_frameOf, hk] using hnonzero hj
    · rw [frameOf_getElem?_of_lt hj]
      exact getElem?_ne_terminator hzero j
  · rw [List.take_left' changed_length, ← crc16_frameOf p]
    exact crc16_set_ne (by rw [length_frameOf]; exact hk) hchanged

end Sys2Proof.Claims
end

