-- ==== Sys2Proof/Proofs/Medium.lean ====
section
/-! PROOFS. The Medium: read after write, and that its canonical form is one (20_memory.md sections 2 and 6). -/

namespace Sys2Proof.Machine

theorem Memory.wfFrom_cons_iff {lo k : Nat} {v : Byte} {rest : Memory} :
    Memory.wfFrom lo ((k, v) :: rest) = true ↔
      lo ≤ k ∧ k < Config.capacity ∧ v ≠ Memory.blank ∧ Memory.wfFrom (k + 1) rest = true := by
  simp only [Memory.wfFrom, Bool.and_eq_true, decide_eq_true_eq, and_assoc]

theorem Memory.read_cons (k : Nat) (v : Byte) (rest : Memory) (a : Nat) :
    Memory.read ((k, v) :: rest) a = if k = a then v else Memory.read rest a := rfl

/-- A listed byte is not blank, so a form that begins above its address reads otherwise there. -/
theorem Memory.read_head_ne {lo k : Nat} {v : Byte} {rest m : Memory}
    (h : Memory.wfFrom lo ((k, v) :: rest) = true) (hm : Memory.wfFrom (k + 1) m = true) :
    Memory.read ((k, v) :: rest) k ≠ Memory.read m k := by
  obtain ⟨-, -, hv, -⟩ := Memory.wfFrom_cons_iff.mp h
  rwa [Memory.read_cons, if_pos rfl, Memory.read_of_lt k.lt_succ_self hm]

/-- Forms with one head that read alike have tails that read alike: below the tails both read blank. -/
theorem Memory.read_tail_eq {k : Nat} {v v' : Byte} {rest rest' : Memory} (h : Memory.wfFrom (k + 1) rest = true)
    (h' : Memory.wfFrom (k + 1) rest' = true)
    (heq : ∀ a, Memory.read ((k, v) :: rest) a = Memory.read ((k, v') :: rest') a) (a : Nat) :
    Memory.read rest a = Memory.read rest' a := by
  by_cases ha : k = a
  · rw [Memory.read_of_lt (by omega) h, Memory.read_of_lt (by omega) h']
  · simpa only [Memory.read_cons, if_neg ha] using heq a

/-- Canonical forms that read alike are the same, entry by entry. -/
theorem Memory.eq_of_read_eq : ∀ {m m' : Memory} {lo : Nat}, Memory.wfFrom lo m = true → Memory.wfFrom lo m' = true →
    (∀ a, Memory.read m a = Memory.read m' a) → m = m'
  | [], [], _, _, _, _ => rfl
  | [], (k', _) :: _, _, _, h', heq => absurd (heq k').symm (Memory.read_head_ne h' rfl)
  | (k, _) :: _, [], _, h, _, heq => absurd (heq k) (Memory.read_head_ne h rfl)
  | (k, v) :: rest, (k', v') :: rest', lo, h, h', heq => by
    obtain ⟨-, hk, hv, htail⟩ := Memory.wfFrom_cons_iff.mp h
    obtain ⟨-, hk', hv', htail'⟩ := Memory.wfFrom_cons_iff.mp h'
    rcases lt_trichotomy k k' with hlt | rfl | hlt
    · exact absurd (heq k) (Memory.read_head_ne h (Memory.wfFrom_cons_iff.mpr ⟨hlt, hk', hv', htail'⟩))
    · have same_byte : v = v' := by simpa only [Memory.read_cons, if_pos] using heq k
      rw [same_byte, Memory.eq_of_read_eq htail htail' (Memory.read_tail_eq htail htail' heq)]
    · exact absurd (heq k').symm (Memory.read_head_ne h' (Memory.wfFrom_cons_iff.mpr ⟨hlt, hk, hv, htail⟩))

end Sys2Proof.Machine

namespace Sys2Proof.Claims
open Sys2Proof Sys2Proof.Machine

/-- Settles O57: the span read back is the bytes stored, with nothing of the old span behind them. -/
theorem mediumReadAfterWrite : Obligations.MediumReadAfterWrite := by
  intro m a v hwf hfits
  refine ⟨Memory.wf_writeBytes hwf hfits, ?_, fun b hb => Memory.read_writeBytes_outside hwf hfits hb⟩
  rw [Memory.bytes_writeBytes_self hwf hfits le_rfl, List.drop_eq_nil_of_le (Memory.length_bytes ..).le, List.append_nil]

/-- Settles O58: entry by entry, since a listed byte is never blank. -/
theorem mediumFormIsCanonical : Obligations.MediumFormIsCanonical :=
  fun _ _ hwf hwf' heq => Memory.eq_of_read_eq hwf hwf' heq

end Sys2Proof.Claims
end

