-- ==== Sys2Proof/Proofs/ReportTexts.lean ====
section
/-! PROOFS. The texts of reports: the offset's numeral and the bodies (30_encoding.md section 4). -/

namespace Sys2Proof.Claims
open Sys2Proof Sys2Proof.Machine

/-- A character of an upper-case hexadecimal numeral. -/
def IsHexDigit (b : Byte) : Prop := (0x30 ≤ b.toNat ∧ b.toNat ≤ 0x39) ∨ (0x41 ≤ b.toNat ∧ b.toNat ≤ 0x46)

/-- The value of a numeral read from the left, behind digits of value `n`. -/
def numeralFrom (n : Nat) (digits : List Byte) : Nat := digits.foldl (fun n b => n * 16 + digitValue b) n

/-- One digit has its value, is a hexadecimal digit, and is `0` only for zero. -/
theorem hexDigit_spec : ∀ n < 16, digitValue (hexDigit n) = n ∧ IsHexDigit (hexDigit n) ∧
    (hexDigit n = 0x30 → n = 0) := by
  unfold IsHexDigit
  decide

/-- The digits written before `acc` are those of `n`, as long as the fuel covers them. -/
theorem numeralFrom_hexDigits : ∀ {fuel n : Nat} {acc : List Byte}, n < 16 ^ fuel →
    numeralFrom 0 (hexDigits fuel n acc) = numeralFrom n acc
  | 0, n, acc, h => by rw [show n = 0 by omega]; rfl
  | fuel + 1, n, acc, h => by
    unfold hexDigits
    split
    · rename_i hn
      rw [hn]
    · rw [numeralFrom_hexDigits (by omega), numeralFrom, List.foldl_cons, (hexDigit_spec (n % 16) (by omega)).1,
        Nat.div_add_mod']
      rfl

/-- Only hexadecimal digits are written. -/
theorem hexDigits_isHexDigit : ∀ {fuel n : Nat} {acc : List Byte}, (∀ b ∈ acc, IsHexDigit b) →
    ∀ b ∈ hexDigits fuel n acc, IsHexDigit b
  | 0, _, _, hacc => hacc
  | fuel + 1, n, acc, hacc => by
    unfold hexDigits
    split
    · exact hacc
    · refine hexDigits_isHexDigit fun b hb => ?_
      rcases List.mem_cons.mp hb with rfl | hb
      · exact (hexDigit_spec (n % 16) (by omega)).2.1
      · exact hacc b hb

/-- A positive number's text begins with a digit other than `0`: the last one written is its leading digit. -/
theorem hexDigits_head : ∀ {fuel n : Nat} {acc : List Byte}, 0 < n → n < 16 ^ fuel →
    ∃ b bs, hexDigits fuel n acc = b :: bs ∧ b ≠ 0x30
  | 0, n, _, hpos, h => by simp at h; omega
  | fuel + 1, n, acc, hpos, h => by
    rw [hexDigits, if_neg (by omega)]
    rcases Nat.eq_zero_or_pos (n / 16) with hlast | hmore
    · have leading : hexDigit (n % 16) ≠ 0x30 := fun hzero => by
        have := (hexDigit_spec (n % 16) (by omega)).2.2 hzero
        omega
      refine ⟨_, acc, ?_, leading⟩
      rw [hlast]
      cases fuel <;> rfl
    · exact hexDigits_head hmore (by omega)

/-- Settles O59: offset 0 is the digit `0`; any other offset has at most eight digits, and its leading one is not `0`. -/
theorem hexOffsetIsTheNumeral : Obligations.HexOffsetIsTheNumeral := by
  intro off
  by_cases hzero : off = 0
  · subst hzero
    decide
  · have hpos : 0 < off.toNat := by
      rcases Nat.eq_zero_or_pos off.toNat with h | h
      · exact absurd (BitVec.eq_of_toNat_eq h) hzero
      · exact h
    have hfuel : off.toNat < 16 ^ 8 := off.isLt
    obtain ⟨b, bs, hdigits, hlead⟩ := hexDigits_head (acc := []) hpos hfuel
    rw [hexOffset, if_neg hzero]
    refine ⟨numeralFrom_hexDigits hfuel, hexDigits_isHexDigit (by simp), by simp [hdigits], fun h => ?_⟩
    rw [hdigits] at h
    exact absurd (Option.some.inj h) hlead

/-- Settles O60: each body is its literal; an entry's stands around payload and offset, and a diagnostic has a first
byte. -/
theorem reportBodies : Obligations.ReportBodies :=
  ⟨rfl, rfl, rfl, fun _ _ => rfl, by decide, fun _ => rfl, fun _ _ _ => List.cons_ne_nil _ _⟩

end Sys2Proof.Claims
end

