-- ==== Sys2Proof/Proofs/Commands.lean ====
section
/-! PROOFS. RESET, the command lines, and what a step runs (43_command_fsm.md sections 1 to 4; 10_state.md section 7). -/

namespace Sys2Proof.Machine

/-- The `UserInput` step on a complete line: the line is taken and run (R135). -/
theorem step_of_line {s u : State} {line rest : List Byte} (hmoves : BlockMoves s u) (hfsm : u.fsm = .userInput)
    (hinp : u.inp = line ++ Config.newline :: rest) (hline : Config.newline ∉ line) :
    step s = exec (decodeLine line) (u.tookLine line rest) := by
  rw [step_blockMoves hmoves, blockStep, hfsm]
  simp only [userInputStep, hinp, splitLine_append hline]

/-- The `UserInput` step without a complete line waits (R126). -/
theorem step_of_no_line {s u : State} (hmoves : BlockMoves s u) (hfsm : u.fsm = .userInput)
    (hinp : Config.newline ∉ u.inp) : step s = .next u := by
  rw [step_blockMoves hmoves, blockStep, hfsm]
  simp only [userInputStep, splitLine_none hinp]

/-- The `BootScan` step (R128). -/
theorem step_of_bootScan {s u : State} (hmoves : BlockMoves s u) (hfsm : u.fsm = .bootScan) :
    step s = onNext afterBootScan (exec .bootscan u) := by
  rw [step_blockMoves hmoves, blockStep, hfsm]

/-- The `Write` step (R132). -/
theorem step_of_write {s u : State} (hmoves : BlockMoves s u) (hfsm : u.fsm = .write) :
    step s = onNext afterOk (exec (.append (pendingPayload u)) u) := by
  rw [step_blockMoves hmoves, blockStep, hfsm]

/-- The `Read` step (R134). -/
theorem step_of_read {s u : State} (hmoves : BlockMoves s u) (hfsm : u.fsm = .read) :
    step s = onNext afterRead (exec .readall u) := by
  rw [step_blockMoves hmoves, blockStep, hfsm]

theorem pendingPayload_bootEntry {s : State} (h : s.pending = .bootEntry) :
    pendingPayload s = [0x42, 0x6F, 0x6F, 0x74] := by
  simp only [pendingPayload, h]

theorem pendingPayload_probeEntry {s : State} (h : s.pending = .probeEntry) :
    pendingPayload s = s.params.probe.bytes := by
  simp only [pendingPayload, h]

end Sys2Proof.Machine

namespace Sys2Proof.Claims
open Sys2Proof Sys2Proof.Machine

/-- Settles O34: RESET's values for the working storage are some values. -/
theorem resetClearsTheBlockAndKeepsTheMedium : Obligations.ResetClearsTheBlockAndKeepsTheMedium :=
  fun s => ⟨s.resetBlock.pending, s.resetBlock.crcAcc, s.resetBlock.slotbuf, s.resetBlock.scanOff, by simp, rfl⟩

/-- Settles O38. -/
theorem commandLinesComplete : Obligations.CommandLinesComplete :=
  fun _ _ => ⟨rfl, rfl, rfl, rfl, rfl⟩

/-- Settles O5: the instruction of a terminated line is what its content decodes to, which is what the step runs. -/
theorem stepRunsTheTypedLine : Obligations.StepRunsTheTypedLine := by
  intro s u line rest i hmoves hfsm hinp hline hdecode
  have hi : decodeLine line = i := Except.ok.inj ((decode_terminated hline).symm.trans hdecode)
  rw [step_of_line hmoves hfsm hinp hline, hi]
  rfl

/-- Settles O6: the event at the head says what the step is. -/
theorem stepRunsTheNextEvent : Obligations.StepRunsTheNextEvent := by
  intro s rest
  refine ⟨fun h => ?_, fun bytes i h hdecode => ?_, fun b h => ?_⟩
  · simp only [step, wholeStep, h]
  · rw [step_call h, benchStep_of_decode hdecode]
  · simp only [step, wholeStep, h]

/-- Settles O7: state by state, the `Write` state by its tag. -/
theorem actionStatesRunTheirOperation : Obligations.ActionStatesRunTheirOperation := by
  intro s u hmoves
  refine ⟨step_of_bootScan hmoves, fun h => ?_, fun h htag => ?_, fun h htag => ?_, step_of_read hmoves⟩
  · rw [step_of_erase hmoves h, exec_eraseall_eq, onNext_next]
  · rw [step_of_write hmoves h, pendingPayload_bootEntry htag]
  · rw [step_of_write hmoves h, pendingPayload_probeEntry htag]

/-- Settles O8. -/
theorem userInputWaitsForALine : Obligations.UserInputWaitsForALine :=
  fun _ _ hmoves hfsm hinp => step_of_no_line hmoves hfsm hinp

/-- Settles O39: the content is empty, so the echo is the terminator alone and the command only keeps `UserInput`. -/
theorem emptyLineOnlyEchoes : Obligations.EmptyLineOnlyEchoes := by
  intro s u rest hmoves hfsm hinp
  rw [step_of_line (line := []) hmoves hfsm hinp List.not_mem_nil]
  change Host.Outcome.next { u.tookLine [] rest with fsm := .userInput } = _
  rw [← hfsm]
  rfl

/-- Settles O40: no command word matches, so the line is echoed and reported. -/
theorem unrecognisedLineIsReported : Obligations.UnrecognisedLineIsReported := by
  intro s u line rest hmoves hfsm hinp hline hempty herase hwrite hread
  rw [step_of_line hmoves hfsm hinp hline, decodeLine_unrecognised ⟨hempty, herase, hwrite, hread⟩]
  change Host.Outcome.next { (u.tookLine line rest).emit .invalidInputMsg with fsm := .userInput } = _
  rw [← hfsm]
  simp [State.tookLine, State.emit]

end Sys2Proof.Claims
end

