-- ==== Sys2Proof/Proofs/Outcomes.lean ====
section
/-! PROOFS. Everything the state after an operation can be, said once for each operation: its value returned, its error
taken, or the reset that struck (60_exceptions.md section 4; 70_reset_and_hazards.md section 1). -/

namespace Sys2Proof.Machine

/-- The meaning `exec` gives `BOOTSCAN` (R106). -/
theorem exec_bootscan_eq (s : State) :
    exec .bootscan s = .next (complete .bootscan .recovery (bootScanOver slotOffsets s)) := rfl

/-- The meaning `exec` gives `APPEND` (R109). -/
theorem exec_append_eq (p : List Byte) (s : State) :
    exec (.append p) s = .next (complete .append (fun _ => .ok) (appendEntry p s)) := rfl

/-- The meaning `exec` gives `READALL` (R114). -/
theorem exec_readall_eq (s : State) :
    exec .readall s = .next (complete .readall .exhausted (readOver slotOffsets { s with yielded := [] })) := rfl

theorem length_slotOffsets : slotOffsets.length = 32 := by simp [slotOffsets]

/-- Nothing but the encoder's working storage and the result changes when ENCODE completes. -/
theorem exec_encode_cases {p : List Byte} {s t : State} (h : exec (.encode p) s = .next t) :
    (∃ sb c r, t = { s with slotbuf := sb, crcAcc := c, result := .frame r }) ∨
    t = s.raise .encode .payloadInvalid p.length := by
  rw [exec_encode_eq] at h
  cases h
  cases hlegal : legalPayload p with
  | true => rw [encodeSlot_legal hlegal]; exact .inl ⟨_, _, _, rfl⟩
  | false => rw [encodeSlot_illegal hlegal]; exact .inr rfl

/-- Everything BOOTSCAN can end in. -/
theorem exec_bootscan_cases {s t : State} (h : exec .bootscan s = .next t) :
    ∃ u, ReadOnly s u ∧ u.out = s.out ∧ u.yielded = s.yielded ∧ u.result = s.result ∧
      ((∃ off ∈ slotOffsets, t = { u with cursor := off, result := .recovery (.empty off) }) ∨
        t = { u with cursor := BitVec.ofNat 32 Config.capacity, result := .recovery .full } ∨
        (∃ off ∈ slotOffsets, t = u.raise .bootscan .channelFailure off.toNat) ∨
        (ResetStrikes 32 s ∧ t = u.resetBlock)) := by
  rw [exec_bootscan_eq] at h
  cases h
  cases hscan : bootScanOver slotOffsets s with
  | mk e v =>
    obtain ⟨u, hread, hout, hyielded, hresult, hend⟩ := bootScanOver_cases (List.Subset.refl _) hscan
    refine ⟨u, hread, hout, hyielded, hresult, ?_⟩
    rcases hend with ⟨off, hoff, rfl, rfl⟩ | ⟨rfl, rfl⟩ | ⟨off, hoff, rfl, rfl⟩ | ⟨rfl, rfl⟩
    · exact .inl ⟨off, hoff, rfl⟩
    · exact .inr (.inl rfl)
    · exact .inr (.inr (.inl ⟨off, hoff, rfl⟩))
    · exact .inr (.inr (.inr ⟨length_slotOffsets ▸ bootScanOver_reset hscan, rfl⟩))

/-- Everything APPEND can end in. -/
theorem exec_append_cases {p : List Byte} {s t : State} (h : exec (.append p) s = .next t) :
    t = s.raise .append .protocolViolation s.cursor.toNat ∨
    t = s.raise .append .payloadInvalid p.length ∨
    ∃ u, StoreOnly s u ∧
      (t = { u with cursor := s.cursor + BitVec.ofNat 32 Config.slotSize, result := .ok } ∨
        t = u.raise .append .channelFailure s.cursor.toNat ∨ (ResetStrikes 1 s ∧ t = u.resetBlock)) := by
  rw [exec_append_eq] at h
  cases h
  cases happend : appendEntry p s with
  | mk e v =>
    rcases appendEntry_cases happend with ⟨-, rfl, rfl⟩ | ⟨-, -, rfl, rfl⟩ | ⟨-, -, u, hwrite, hend⟩
    · exact .inl rfl
    · exact .inr (.inl rfl)
    · obtain ⟨h1, h2, h3, h4, h5, h6, h7, h8, h9⟩ := memWrite_storeOnly hwrite
      refine .inr (.inr ⟨u, ⟨h1, h2, h3, h4, h5, h6, h7, h8, h9⟩, ?_⟩)
      rcases hend with ⟨rfl, rfl⟩ | ⟨rfl, rfl⟩ | ⟨rfl, rfl⟩
      · exact .inl rfl
      · exact .inr (.inl rfl)
      · exact .inr (.inr ⟨appendEntry_reset happend, rfl⟩)

/-- Everything ERASEALL can end in. -/
theorem exec_eraseall_cases {s t : State} (h : exec .eraseall s = .next t) :
    ∃ u, StoreOnly s u ∧ u.slotbuf = s.slotbuf ∧
      (t = { u with cursor := 0, result := .ok } ∨
        (∃ off ∈ slotOffsets, t = u.raise .eraseall .channelFailure off.toNat) ∨
        (ResetStrikes 32 s ∧ t = u.resetBlock)) := by
  rw [exec_eraseall_eq] at h
  cases h
  cases herase : eraseOver slotOffsets s with
  | mk e v =>
    obtain ⟨u, hstore, hbuf, hend⟩ := eraseOver_cases herase
    refine ⟨u, hstore, hbuf, ?_⟩
    rcases hend with ⟨rfl, rfl⟩ | ⟨off, hoff, rfl, rfl⟩ | ⟨rfl, rfl⟩
    · exact .inl rfl
    · exact .inr (.inl ⟨off, hoff, rfl⟩)
    · exact .inr (.inr ⟨length_slotOffsets ▸ eraseOver_reset herase, rfl⟩)

/-- An entry a slot can hold, at a slot's offset. -/
def EntryOk (e : Entry) : Prop :=
  e.offset ∈ slotOffsets ∧ 1 ≤ e.payload.length ∧ e.payload.length + 3 ≤ Config.slotSize ∧ Config.terminator ∉ e.payload

/-- Everything READALL can end in: the entries delivered so far stand in `yielded`, and in the reports when the `Read`
state runs it. -/
theorem exec_readall_cases {s t : State} (h : exec .readall s = .next t) :
    ∃ u, ReadOnly s u ∧ u.out = s.out ++ (if s.fsm = .read then u.yielded.map Entry.report else []) ∧
      (∀ e ∈ u.yielded, EntryOk e) ∧
      ((∃ b, t = { u with result := .exhausted b }) ∨
        (∃ off ∈ slotOffsets, t = u.raise .readall .channelFailure off.toNat) ∨
        (ResetStrikes 32 s ∧ t = u.resetBlock)) := by
  rw [exec_readall_eq] at h
  cases h
  cases hread : readOver slotOffsets { s with yielded := [] } with
  | mk e u =>
    obtain ⟨⟨h1, h2, h3, h4, h5, h6, h7, h8, h9⟩, -, ⟨es, hyielded, hout, hes⟩, hend⟩ :=
      readOver_cases (List.Subset.refl _) hread
    rw [List.nil_append] at hyielded
    subst hyielded
    refine ⟨u, ⟨h1, h2, h3, h4, h5, h6, h7, h8, h9⟩, hout, hes, ?_⟩
    rcases hend with ⟨b, rfl⟩ | ⟨off, hoff, rfl⟩ | rfl
    · exact .inl ⟨b, rfl⟩
    · exact .inr (.inl ⟨off, hoff, rfl⟩)
    · have struck : ResetStrikes slotOffsets.length { s with yielded := [] } := readOver_reset hread
      exact .inr (.inr ⟨length_slotOffsets ▸ struck, rfl⟩)

/-! ### What the sequencer does with each end -/

/-- After a reset the sequencer has nothing left to do. -/
theorem afterBootScan_resetBlock (s : State) : afterBootScan s.resetBlock = s.resetBlock := rfl
theorem afterOk_resetBlock (s : State) : afterOk s.resetBlock = s.resetBlock := rfl
theorem afterRead_resetBlock (s : State) : afterRead s.resetBlock = s.resetBlock := rfl

/-- The boot scan found room (R128). -/
theorem afterBootScan_of_empty {s : State} {off : Offset} (h : s.result = .recovery (.empty off)) :
    afterBootScan s = { s.emit .bootMsg with pending := .bootEntry, fsm := .write } := by
  simp only [afterBootScan, h]

/-- The boot scan found a full log (R128). -/
theorem afterBootScan_of_full {s : State} (h : s.result = .recovery .full) :
    afterBootScan s = { s with fsm := .erase } := by
  simp only [afterBootScan, h]

/-- The closing message of a read-back, where `READ_END_REPORT` asks for one (R134). -/
def closing (r : ReadEndReport) (count : Nat) (atInvalidSlot : Bool) : List Report :=
  if closingReport r count atInvalidSlot then [.noEntriesMsg] else []

/-- The read-back's sequence ended (R134). -/
theorem afterRead_of_exhausted {s : State} {b : Bool} (h : s.result = .exhausted b) :
    afterRead s = { s with
      out := s.out ++ closing s.params.readEnd s.yielded.length b
      fsm := .userInput } := by
  conv_lhs => unfold afterRead; rw [h]
  dsimp only [closing]
  split
  · rfl
  · rw [List.append_nil, h]

end Sys2Proof.Machine
end

