-- ==== Sys2Proof/Proofs/Invariant.lean ====
section
/-! PROOFS. The invariant of Medium, cursor, `SLOTBUF`, transactions and reports: each operation keeps it, so each step does
(10_state.md sections 2 and 3; 20_memory.md sections 4 and 5; 60_exceptions.md section 1). -/

namespace Sys2Proof.Machine

/-- The capacity test fails exactly when a slot is free. -/
theorem logFull_eq_false {c : Offset} : logFull c = false ↔ c.toNat ≤ 1984 := by
  simp [logFull, BitVec.lt_def, Config.lastOffset]

theorem logFull_eq_true {c : Offset} : logFull c = true ↔ 1984 < c.toNat := by
  simp [logFull, BitVec.lt_def, Config.lastOffset]

/-- The next slot's offset. -/
theorem cursor_advance_toNat {c : Offset} (h : c.toNat ≤ 1984) :
    (c + BitVec.ofNat 32 Config.slotSize).toNat = c.toNat + 64 := by
  simp only [Config.slotSize, BitVec.toNat_add, BitVec.toNat_ofNat]
  omega

/-! ### What keeps the invariant -/

/-- The invariant looks at five fields only. -/
theorem State.Inv.congr {s t : State} (h : s.Inv) (hmed : t.med = s.med) (hcursor : t.cursor = s.cursor)
    (hbuf : t.slotbuf = s.slotbuf) (htrace : t.trace = s.trace) (hout : t.out = s.out) : t.Inv :=
  ⟨hmed ▸ h.medium, hcursor ▸ h.cursor, hbuf ▸ h.slotbuf, htrace ▸ h.trace, hout ▸ h.reports⟩

theorem State.Inv.with_cursor {s : State} (h : s.Inv) {c : Offset} (hc : CursorOk c) : State.Inv { s with cursor := c } :=
  ⟨h.medium, hc, h.slotbuf, h.trace, h.reports⟩

theorem State.Inv.with_reports {s : State} (h : s.Inv) {rs : List Report} (hrs : ∀ r ∈ rs, ReportOk r) :
    State.Inv { s with out := s.out ++ rs } :=
  ⟨h.medium, h.cursor, h.slotbuf, h.trace, fun r hr => (List.mem_append.mp hr).elim (h.reports r) (hrs r)⟩

theorem State.Inv.with_slotbuf {s : State} (h : s.Inv) {sb : List Byte} (hsb : sb.length = Config.slotSize) :
    State.Inv { s with slotbuf := sb } :=
  ⟨h.medium, h.cursor, hsb, h.trace, h.reports⟩

/-- A scan's offset is a legal cursor. -/
theorem cursorOk_slotOffset {off : Offset} (h : off ∈ slotOffsets) : CursorOk off := by
  have := slotOffsets_bounds h
  exact ⟨this.1, show off.toNat ≤ 2048 by omega⟩

/-- The error kinds that are raised: none is the verdict `DecodeInvalid` (R152). -/
def Ended.Reportable {α : Type} (e : Ended α) : Prop := ∀ kind info, e = .raised kind info → kind ≠ .decodeInvalid

theorem Ended.reportable_channelFailure {α : Type} (info : Nat) :
    (Ended.raised (α := α) .channelFailure info).Reportable := by
  rintro kind info' h
  cases h
  exact ErrKind.noConfusion

/-- A reset leaves cursor 0, no report and a whole `SLOTBUF`. -/
theorem State.Inv.resetBlock {s : State} (h : s.Inv) : s.resetBlock.Inv :=
  ⟨h.medium, ⟨rfl, Nat.zero_le _⟩, by simp, h.trace, List.forall_mem_nil _⟩

/-- The end of an operation keeps the invariant. -/
theorem State.Inv.complete {α : Type} {op : OpSel} {f : α → OpResult} {e : Ended α} {s : State} (h : s.Inv)
    (he : e.Reportable) : (complete op f (e, s)).Inv := by
  cases e with
  | done a => exact h.congr rfl rfl rfl rfl rfl
  | raised kind info =>
    have hreport : ∀ r ∈ [Report.errorMsg kind op info], ReportOk r := by simpa [ReportOk] using he kind info rfl
    exact (h.with_reports hreport).congr rfl rfl rfl rfl rfl
  | reset => exact h.resetBlock

/-- A slot read is a transaction the block may issue. -/
theorem txnOk_read {off : Offset} (h : off ∈ slotOffsets) (a : Answer) : TxnOk (.read off Config.slotSize a) := by
  have hb := slotOffsets_bounds h
  exact ⟨hb.1, rfl, show off.toNat + 64 ≤ 2048 by omega⟩

/-- What only reads keeps the invariant, as long as its reports are legal. -/
theorem State.Inv.readOnly {s t : State} (h : s.Inv) (hread : ReadOnly s t) (hout : ∀ r ∈ t.out, ReportOk r) : t.Inv := by
  obtain ⟨l, htrace, hl⟩ := hread.trace
  refine ⟨hread.med ▸ h.medium, hread.cursor ▸ h.cursor, hread.slotbuf h.slotbuf, fun x hx => ?_, hout⟩
  rw [htrace] at hx
  rcases List.mem_append.mp hx with hx | hx
  · exact h.trace x hx
  · obtain ⟨off, hoff, a, rfl⟩ := hl x hx
    exact txnOk_read hoff a

/-- A write the block may issue keeps the invariant, whatever the channel answers: torn bytes stay in its span. -/
theorem State.Inv.memWrite {addr : Offset} {v : List Byte} {s t : State} {e : Ended Unit} (h : s.Inv)
    (hok : ∀ a, TxnOk (.write addr v a)) (hwrite : memWrite addr v s = (e, t)) : t.Inv := by
  have hsame := memWrite_storeOnly hwrite
  rcases memWrite_medium hwrite with ⟨w, hlen, hmed, -, hbuf, a, htrace⟩ | ⟨-, rfl⟩
  · obtain ⟨-, -, hfits⟩ := hok a
    refine ⟨?_, hsame.cursor ▸ h.cursor, hbuf ▸ h.slotbuf, fun x hx => ?_, hsame.out ▸ h.reports⟩
    · rw [hmed]
      exact Memory.wf_writeBytes h.medium (hlen ▸ hfits)
    · rw [htrace] at hx
      rcases List.mem_append.mp hx with hx | hx
      · exact h.trace x hx
      · rw [List.mem_singleton.mp hx]
        exact hok a
  · exact h.congr rfl rfl rfl rfl rfl

/-- An erase write is a transaction the block may issue. -/
theorem txnOk_erase {off : Offset} (h : off ∈ slotOffsets) (a : Answer) : TxnOk (.write off [Config.eraseByte] a) := by
  have hb := slotOffsets_bounds h
  exact ⟨hb.1, .inl rfl, show off.toNat + 1 ≤ 2048 by omega⟩

/-- A frame's write at a legal cursor with room is a transaction the block may issue. -/
theorem txnOk_frame {c : Offset} {p : List Byte} (hc : CursorOk c) (hroom : c.toNat ≤ 1984)
    (hlegal : legalPayload p = true) (a : Answer) : TxnOk (.write c (frameOf p) a) := by
  obtain ⟨hpos, hmax, -⟩ := legalPayload_iff.mp hlegal
  simp only [Config.payloadMax] at hmax
  simp only [TxnOk, length_frameOf, Config.slotSize, Config.capacity]
  exact ⟨hc.1, by omega, by omega⟩

/-! ### The operations -/

theorem encodeSlot_keeps_inv {p : List Byte} {s t : State} {e : Ended (List Byte)} (h : s.Inv)
    (hencode : encodeSlot p s = (e, t)) : t.Inv ∧ e.Reportable := by
  rcases encodeSlot_cases hencode with ⟨hlegal, rfl, rfl⟩ | ⟨-, rfl, rfl⟩
  · refine ⟨State.Inv.congr (h.with_slotbuf (sb := frameOf p ++ s.slotbuf.drop (p.length + 3)) ?_) rfl rfl rfl rfl rfl,
      fun _ _ h => by cases h⟩
    obtain ⟨-, hmax, -⟩ := legalPayload_iff.mp hlegal
    simp only [Config.payloadMax] at hmax
    simp only [List.length_append, length_frameOf, List.length_drop, h.slotbuf, Config.slotSize]
    omega
  · refine ⟨h, ?_⟩
    rintro kind info heq
    cases heq
    exact ErrKind.noConfusion

theorem bootScanOver_keeps_inv {s t : State} {e : Ended Recovery} (h : s.Inv)
    (hscan : bootScanOver slotOffsets s = (e, t)) : t.Inv ∧ e.Reportable := by
  obtain ⟨u, hread, hout, -, -, hend⟩ := bootScanOver_cases (List.Subset.refl _) hscan
  have hu : u.Inv := h.readOnly hread (hout ▸ h.reports)
  rcases hend with ⟨off, hoff, rfl, rfl⟩ | ⟨rfl, rfl⟩ | ⟨off, -, rfl, rfl⟩ | ⟨rfl, rfl⟩
  · exact ⟨hu.with_cursor (cursorOk_slotOffset hoff), fun _ _ h => by cases h⟩
  · exact ⟨hu.with_cursor (by decide), fun _ _ h => by cases h⟩
  · exact ⟨hu, Ended.reportable_channelFailure _⟩
  · exact ⟨hu, fun _ _ h => by cases h⟩

theorem appendEntry_keeps_inv {p : List Byte} {s t : State} {e : Ended Unit} (h : s.Inv)
    (happend : appendEntry p s = (e, t)) : t.Inv ∧ e.Reportable := by
  rcases appendEntry_cases happend with ⟨-, rfl, rfl⟩ | ⟨-, -, rfl, rfl⟩ | ⟨hroom, hlegal, u, hwrite, hend⟩
  · exact ⟨h, fun _ _ heq => by cases heq; exact ErrKind.noConfusion⟩
  · exact ⟨h, fun _ _ heq => by cases heq; exact ErrKind.noConfusion⟩
  · rw [logFull_eq_false] at hroom
    have hencoded := (encodeSlot_keeps_inv h (encodeSlot_legal hlegal s)).1
    have hu : u.Inv := hencoded.memWrite (txnOk_frame h.cursor hroom hlegal) hwrite
    rcases hend with ⟨rfl, rfl⟩ | ⟨rfl, rfl⟩ | ⟨rfl, rfl⟩
    · refine ⟨hu.with_cursor ?_, fun _ _ h => by cases h⟩
      obtain ⟨haligned, -⟩ := h.cursor
      simp only [CursorOk, cursor_advance_toNat hroom, Config.slotSize, Config.capacity] at haligned ⊢
      omega
    · exact ⟨hu, Ended.reportable_channelFailure _⟩
    · exact ⟨hu, fun _ _ h => by cases h⟩

theorem eraseOver_keeps_inv : ∀ {offs : List Offset} {s t : State} {e : Ended Unit}, offs ⊆ slotOffsets → s.Inv →
    eraseOver offs s = (e, t) → t.Inv ∧ e.Reportable
  | [], s, t, e, _, h, herase => by
    cases herase
    exact ⟨h.with_cursor (by decide), fun _ _ h => by cases h⟩
  | off :: rest, s, t, e, hoffs, h, herase => by
    cases hwrite : memWrite off [Config.eraseByte] { s with scanOff := off } with
    | mk e' u =>
      have hs : State.Inv { s with scanOff := off } := h.congr rfl rfl rfl rfl rfl
      have hu : u.Inv := hs.memWrite (txnOk_erase (hoffs List.mem_cons_self)) hwrite
      rw [eraseOver, hwrite] at herase
      rcases memWrite_cases hwrite with ⟨rfl, -⟩ | ⟨rfl, -⟩ | ⟨rfl, -⟩
      · exact eraseOver_keeps_inv (List.subset_of_cons_subset hoffs) hu herase
      · cases herase
        exact ⟨hu, Ended.reportable_channelFailure _⟩
      · cases herase
        exact ⟨hu, fun _ _ h => by cases h⟩

/-- An entry a slot can hold makes a legal report. -/
theorem reportOk_entry {e : Entry} (h : EntryOk e) : ReportOk e.report := by
  obtain ⟨hoff, hpayload⟩ := h
  have hb := slotOffsets_bounds hoff
  exact ⟨hb.1, hb.2, hpayload⟩

theorem readOver_keeps_inv {s t : State} {e : Ended Bool} (h : s.Inv) (hscan : readOver slotOffsets s = (e, t)) :
    t.Inv ∧ e.Reportable := by
  obtain ⟨hread, -, ⟨es, -, hout, hes⟩, hend⟩ := readOver_cases (List.Subset.refl _) hscan
  refine ⟨h.readOnly hread fun r hr => ?_, ?_⟩
  · rw [hout] at hr
    rcases List.mem_append.mp hr with hr | hr
    · exact h.reports r hr
    · split at hr
      · obtain ⟨x, hx, rfl⟩ := List.mem_map.mp hr
        exact reportOk_entry (hes x hx)
      · cases hr
  · rcases hend with ⟨b, rfl⟩ | ⟨off, -, rfl⟩ | rfl
    · exact fun _ _ h => by cases h
    · exact Ended.reportable_channelFailure _
    · exact fun _ _ h => by cases h

/-- Every instruction keeps the invariant. -/
theorem exec_keeps_inv {i : Instr} {s t : State} (h : s.Inv) (hexec : exec i s = .next t) : t.Inv := by
  cases i <;> cases hexec
  case reset => exact h.resetBlock
  case erase | write | read | emptyLine | crc16 | decode => exact h.congr rfl rfl rfl rfl rfl
  case unrecognisedLine =>
    exact State.Inv.congr (h.with_reports (rs := [.invalidInputMsg]) (by simp [ReportOk])) rfl rfl rfl rfl rfl
  case encode p =>
    obtain ⟨ht, he⟩ := encodeSlot_keeps_inv h (e := (encodeSlot p s).1) rfl
    exact ht.complete he
  case bootscan =>
    obtain ⟨ht, he⟩ := bootScanOver_keeps_inv h (e := (bootScanOver slotOffsets s).1) rfl
    exact ht.complete he
  case append p =>
    obtain ⟨ht, he⟩ := appendEntry_keeps_inv h (e := (appendEntry p s).1) rfl
    exact ht.complete he
  case eraseall =>
    obtain ⟨ht, he⟩ := eraseOver_keeps_inv (List.Subset.refl _) h (e := (eraseOver slotOffsets s).1) rfl
    exact ht.complete he
  case readall =>
    have hs : State.Inv { s with yielded := [] } := h.congr rfl rfl rfl rfl rfl
    obtain ⟨ht, he⟩ := readOver_keeps_inv hs (e := (readOver slotOffsets { s with yielded := [] }).1) rfl
    exact ht.complete he

/-! ### The steps -/

theorem afterBootScan_keeps_inv {s : State} (h : s.Inv) : (afterBootScan s).Inv := by
  unfold afterBootScan
  split
  · exact h.congr rfl rfl rfl rfl rfl
  · exact State.Inv.congr (h.with_reports (rs := [.bootMsg]) (by simp [ReportOk])) rfl rfl rfl rfl rfl
  · exact h

theorem afterOk_keeps_inv {s : State} (h : s.Inv) : (afterOk s).Inv := by
  unfold afterOk
  split
  · exact h.congr rfl rfl rfl rfl rfl
  · exact h

theorem afterRead_keeps_inv {s : State} (h : s.Inv) : (afterRead s).Inv := by
  unfold afterRead
  split
  · split
    · exact State.Inv.congr (h.with_reports (rs := [.noEntriesMsg]) (by simp [ReportOk])) rfl rfl rfl rfl rfl
    · exact h.congr rfl rfl rfl rfl rfl
  · exact h

theorem State.Inv.tookLine {s : State} (h : s.Inv) (line rest : List Byte) : (s.tookLine line rest).Inv := by
  refine State.Inv.congr (h.with_reports (rs := (line ++ [Config.newline]).map .echo) fun r hr => ?_) rfl rfl rfl rfl rfl
  obtain ⟨b, -, rfl⟩ := List.mem_map.mp hr
  exact trivial

/-- What the sequencer does after an operation keeps the invariant when its own writes do. -/
theorem onNext_keeps_inv {f : State → State} (hf : ∀ {s : State}, s.Inv → (f s).Inv) {i : Instr} {s t : State} (h : s.Inv)
    (hstep : onNext f (exec i s) = .next t) : t.Inv := by
  obtain ⟨u, hu⟩ := exec_next i s
  rw [hu, onNext_next] at hstep
  cases hstep
  exact hf (exec_keeps_inv h hu)

theorem blockStep_keeps_inv {s t : State} (h : s.Inv) (hstep : blockStep s = .next t) : t.Inv := by
  unfold blockStep at hstep
  split at hstep
  · exact onNext_keeps_inv afterBootScan_keeps_inv h hstep
  · exact onNext_keeps_inv afterOk_keeps_inv h hstep
  · exact onNext_keeps_inv afterOk_keeps_inv h hstep
  · exact onNext_keeps_inv afterRead_keeps_inv h hstep
  · unfold userInputStep at hstep
    split at hstep
    · cases hstep
      exact h
    · exact exec_keeps_inv (h.tookLine _ _) hstep

theorem benchStep_keeps_inv {bytes : List Byte} {s t : State} (h : s.Inv) (hstep : benchStep bytes s = .next t) :
    t.Inv := by
  unfold benchStep at hstep
  split at hstep
  · exact exec_keeps_inv h hstep
  · cases hstep

end Sys2Proof.Machine

namespace Sys2Proof.Claims
open Sys2Proof Sys2Proof.Machine

/-- Settles O52. -/
theorem resetStateMeetsTheInvariant : Obligations.ResetStateMeetsTheInvariant :=
  ⟨rfl, by decide, List.length_replicate, List.forall_mem_nil _, List.forall_mem_nil _⟩

/-- Settles O53: the block's move, a reset and a bench call run operations that keep the invariant; a byte that arrives
changes nothing the invariant looks at. -/
theorem everyStepKeepsTheInvariant : Obligations.EveryStepKeepsTheInvariant := by
  intro s t h hstep
  rcases step_cases s with ⟨u, hmoves, hs⟩ | ⟨b, rest, -, hs⟩ | ⟨rest, -, hs⟩ | ⟨bytes, rest, -, hs⟩ <;> rw [hs] at hstep
  · have hu : u.Inv := by
      rcases hmoves with ⟨-, rfl⟩ | ⟨rest, -, rfl⟩
      · exact h
      · exact h.congr rfl rfl rfl rfl rfl
    exact blockStep_keeps_inv hu hstep
  · cases hstep
    exact h.congr rfl rfl rfl rfl rfl
  · exact exec_keeps_inv (s := { s with events := rest }) (h.congr rfl rfl rfl rfl rfl) hstep
  · exact benchStep_keeps_inv (s := { s with events := rest }) (h.congr rfl rfl rfl rfl rfl) hstep

end Sys2Proof.Claims
end

