-- ==== Sys2Proof/Proofs/Transitions.lean ====
section
/-! PROOFS. What a step may do to the control state, the reports and the protected fields: the closed table of transitions
(43_command_fsm.md section 5), the taking of an error (60_exceptions.md section 4), the writers of each element
(10_state.md section 5) and the growth of the report stream. -/

namespace Sys2Proof.Machine

/-! ### The closed table, state by state -/

/-- From `BootScan`: to `Erase`, `Write` or `UserInput`, or a reset. -/
theorem bootScan_step_cases {s u t : State} (hmoves : BlockMoves s u) (hfsm : u.fsm = .bootScan)
    (hstep : step s = .next t) :
    (ResetStrikes 32 u ∧ ∃ v : State, t = v.resetBlock) ∨ t.fsm = .erase ∨ t.fsm = .write ∨ t.fsm = .userInput := by
  obtain ⟨v, hv⟩ := exec_next .bootscan u
  rw [step_of_bootScan hmoves hfsm, hv, onNext_next] at hstep
  cases hstep
  obtain ⟨w, -, -, -, -, hend⟩ := exec_bootscan_cases hv
  rcases hend with ⟨off, -, rfl⟩ | rfl | ⟨off, -, rfl⟩ | ⟨hreset, rfl⟩
  · exact .inr (.inr (.inl rfl))
  · exact .inr (.inl rfl)
  · exact .inr (.inr (.inr rfl))
  · exact .inl ⟨hreset, w, rfl⟩

/-- From `Erase`: to `UserInput`, or a reset. -/
theorem erase_step_cases {s u t : State} (hmoves : BlockMoves s u) (hfsm : u.fsm = .erase)
    (hstep : step s = .next t) : (ResetStrikes 32 u ∧ ∃ v : State, t = v.resetBlock) ∨ t.fsm = .userInput := by
  rw [step_of_erase hmoves hfsm] at hstep
  cases hstep
  obtain ⟨w, -, -, hend⟩ := exec_eraseall_cases (exec_eraseall_eq u)
  rcases hend with hend | ⟨off, -, hend⟩ | ⟨hreset, hend⟩ <;> rw [hend]
  · exact .inr rfl
  · exact .inr rfl
  · exact .inl ⟨hreset, w, rfl⟩

/-- From `Write`: to `UserInput`, or a reset at its one transaction. -/
theorem write_step_cases {s u t : State} (hmoves : BlockMoves s u) (hfsm : u.fsm = .write)
    (hstep : step s = .next t) : (ResetStrikes 1 u ∧ ∃ v : State, t = v.resetBlock) ∨ t.fsm = .userInput := by
  obtain ⟨v, hv⟩ := exec_next (.append (pendingPayload u)) u
  rw [step_of_write hmoves hfsm, hv, onNext_next] at hstep
  cases hstep
  rcases exec_append_cases hv with rfl | rfl | ⟨w, -, rfl | rfl | ⟨hreset, rfl⟩⟩
  · exact .inr rfl
  · exact .inr rfl
  · exact .inr rfl
  · exact .inr rfl
  · exact .inl ⟨hreset, w, rfl⟩

/-- From `Read`: to `UserInput`, or a reset. -/
theorem read_step_cases {s u t : State} (hmoves : BlockMoves s u) (hfsm : u.fsm = .read)
    (hstep : step s = .next t) : (ResetStrikes 32 u ∧ ∃ v : State, t = v.resetBlock) ∨ t.fsm = .userInput := by
  obtain ⟨v, hv⟩ := exec_next .readall u
  rw [step_of_read hmoves hfsm, hv, onNext_next] at hstep
  cases hstep
  obtain ⟨w, -, -, -, hend⟩ := exec_readall_cases hv
  rcases hend with ⟨b, rfl⟩ | ⟨off, -, rfl⟩ | ⟨hreset, rfl⟩
  · rw [afterRead_of_exhausted rfl]
    exact .inr rfl
  · exact .inr rfl
  · exact .inl ⟨hreset, w, rfl⟩

/-- What a line's instruction does to the control state. -/
theorem exec_decodeLine_cases {line : List Byte} {s t : State} (hexec : exec (decodeLine line) s = .next t) :
    t.fsm = .userInput ∨ (t.fsm = .erase ∧ line = Config.eraseWord) ∨ (t.fsm = .write ∧ line = Config.writeWord) ∨
      (t.fsm = .read ∧ line = Config.readWord) := by
  rcases decodeLine_cases line with ⟨-, hi⟩ | ⟨hline, hi⟩ | ⟨hline, hi⟩ | ⟨hline, hi⟩ | ⟨-, hi⟩ <;>
    rw [hi] at hexec <;> cases hexec
  · exact .inl rfl
  · exact .inr (.inl ⟨rfl, hline⟩)
  · exact .inr (.inr (.inl ⟨rfl, hline⟩))
  · exact .inr (.inr (.inr ⟨rfl, hline⟩))
  · exact .inl rfl

/-- From `UserInput`: without a line nothing changes; with one, its instruction runs. -/
theorem userInput_step_cases {s u t : State} (hmoves : BlockMoves s u) (hfsm : u.fsm = .userInput)
    (hstep : step s = .next t) :
    (Config.newline ∉ u.inp ∧ t = u) ∨
    ∃ line rest, u.inp = line ++ Config.newline :: rest ∧ exec (decodeLine line) (u.tookLine line rest) = .next t := by
  rw [step_blockMoves hmoves, blockStep, hfsm] at hstep
  simp only [userInputStep] at hstep
  cases hsplit : splitLine u.inp with
  | none =>
    rw [hsplit] at hstep
    cases hstep
    refine .inl ⟨fun hmem => ?_, rfl⟩
    obtain ⟨line, rest, hinp, hline⟩ := List.eq_append_cons_of_mem hmem
    rw [hinp, splitLine_append hline] at hsplit
    cases hsplit
  | some split =>
    rw [hsplit] at hstep
    exact .inr ⟨split.1, split.2, (splitLine_some hsplit).1, hstep⟩

/-! ### The report stream -/

/-- An instruction appends to the reports, or a reset empties them. -/
theorem exec_out_grows {i : Instr} {s t : State} (hexec : exec i s = .next t) :
    s.out <+: t.out ∨ ∃ v : State, t = v.resetBlock := by
  cases i
  case reset => cases hexec; exact .inr ⟨s, rfl⟩
  case erase | write | read | emptyLine | crc16 | decode => cases hexec; exact .inl List.prefix_rfl
  case unrecognisedLine => cases hexec; exact .inl (List.prefix_append ..)
  case encode p =>
    rcases exec_encode_cases hexec with ⟨_, _, _, rfl⟩ | rfl
    · exact .inl List.prefix_rfl
    · exact .inl (List.prefix_append ..)
  case bootscan =>
    obtain ⟨u, -, hout, -, -, hend⟩ := exec_bootscan_cases hexec
    rw [← hout]
    rcases hend with ⟨off, -, rfl⟩ | rfl | ⟨off, -, rfl⟩ | ⟨-, rfl⟩
    · exact .inl List.prefix_rfl
    · exact .inl List.prefix_rfl
    · exact .inl (List.prefix_append ..)
    · exact .inr ⟨u, rfl⟩
  case append p =>
    rcases exec_append_cases hexec with rfl | rfl | ⟨u, hstore, hend⟩
    · exact .inl (List.prefix_append ..)
    · exact .inl (List.prefix_append ..)
    · rw [← hstore.out]
      rcases hend with rfl | rfl | ⟨-, rfl⟩
      · exact .inl List.prefix_rfl
      · exact .inl (List.prefix_append ..)
      · exact .inr ⟨u, rfl⟩
  case eraseall =>
    obtain ⟨u, hstore, -, hend⟩ := exec_eraseall_cases hexec
    rw [← hstore.out]
    rcases hend with rfl | ⟨off, -, rfl⟩ | ⟨-, rfl⟩
    · exact .inl List.prefix_rfl
    · exact .inl (List.prefix_append ..)
    · exact .inr ⟨u, rfl⟩
  case readall =>
    obtain ⟨u, -, hout, -, hend⟩ := exec_readall_cases hexec
    have hgrows : s.out <+: u.out := hout ▸ List.prefix_append ..
    rcases hend with ⟨b, rfl⟩ | ⟨off, -, rfl⟩ | ⟨-, rfl⟩
    · exact .inl hgrows
    · exact .inl (hgrows.trans (List.prefix_append ..))
    · exact .inr ⟨u, rfl⟩

theorem afterBootScan_out_grows (s : State) : s.out <+: (afterBootScan s).out := by
  unfold afterBootScan
  split
  · exact List.prefix_rfl
  · exact List.prefix_append ..
  · exact List.prefix_rfl

theorem afterOk_out (s : State) : (afterOk s).out = s.out := by
  unfold afterOk
  split <;> rfl

theorem afterRead_out_grows (s : State) : s.out <+: (afterRead s).out := by
  unfold afterRead
  split
  · split
    · exact List.prefix_append ..
    · exact List.prefix_rfl
  · exact List.prefix_rfl

/-- Nor does what the sequencer does after an operation shorten them; after a reset it does nothing. -/
theorem onNext_out_grows {f : State → State} (hgrows : ∀ s : State, s.out <+: (f s).out)
    (hreset : ∀ v : State, f v.resetBlock = v.resetBlock) {i : Instr} {s t : State}
    (hstep : onNext f (exec i s) = .next t) : s.out <+: t.out ∨ ∃ v : State, t = v.resetBlock := by
  obtain ⟨u, hu⟩ := exec_next i s
  rw [hu, onNext_next] at hstep
  cases hstep
  rcases exec_out_grows hu with hpre | ⟨v, rfl⟩
  · exact .inl (hpre.trans (hgrows u))
  · exact .inr ⟨v, hreset v⟩

theorem blockStep_out_grows {s t : State} (hstep : blockStep s = .next t) :
    s.out <+: t.out ∨ ∃ v : State, t = v.resetBlock := by
  unfold blockStep at hstep
  split at hstep
  · exact onNext_out_grows afterBootScan_out_grows afterBootScan_resetBlock hstep
  · exact onNext_out_grows (fun s => (afterOk_out s).symm ▸ List.prefix_rfl) afterOk_resetBlock hstep
  · exact onNext_out_grows (fun s => (afterOk_out s).symm ▸ List.prefix_rfl) afterOk_resetBlock hstep
  · exact onNext_out_grows afterRead_out_grows afterRead_resetBlock hstep
  · unfold userInputStep at hstep
    split at hstep
    · cases hstep
      exact .inl List.prefix_rfl
    · exact (exec_out_grows hstep).imp_left (List.prefix_append ..).trans

theorem benchStep_out_grows {bytes : List Byte} {s t : State} (hstep : benchStep bytes s = .next t) :
    s.out <+: t.out ∨ ∃ v : State, t = v.resetBlock := by
  unfold benchStep at hstep
  split at hstep
  · exact exec_out_grows hstep
  · cases hstep

end Sys2Proof.Machine

namespace Sys2Proof.Claims
open Sys2Proof Sys2Proof.Machine

/-- Settles O49: state by state. -/
theorem transitionsAreThoseOfTheTable : Obligations.TransitionsAreThoseOfTheTable := by
  intro s u t hmoves hstep
  cases hfsm : u.fsm with
  | bootScan =>
    rcases bootScan_step_cases hmoves hfsm hstep with ⟨hreset, v, rfl⟩ | hnext
    · exact .inl ⟨rfl, by decide, hreset, rfl, rfl, rfl⟩
    · exact .inr (.inl ⟨rfl, hnext⟩)
  | erase =>
    rcases erase_step_cases hmoves hfsm hstep with ⟨hreset, v, rfl⟩ | hnext
    · exact .inl ⟨rfl, by decide, hreset, rfl, rfl, rfl⟩
    · exact .inr (.inr (.inl ⟨rfl, hnext⟩))
  | write =>
    rcases write_step_cases hmoves hfsm hstep with ⟨hreset, v, rfl⟩ | hnext
    · exact .inl ⟨rfl, by decide, hreset, rfl, rfl, rfl⟩
    · exact .inr (.inr (.inr (.inl ⟨rfl, hnext⟩)))
  | read =>
    rcases read_step_cases hmoves hfsm hstep with ⟨hreset, v, rfl⟩ | hnext
    · exact .inl ⟨rfl, by decide, hreset, rfl, rfl, rfl⟩
    · exact .inr (.inr (.inr (.inr (.inl ⟨rfl, hnext⟩))))
  | userInput =>
    refine .inr (.inr (.inr (.inr (.inr ⟨rfl, ?_⟩))))
    rcases userInput_step_cases hmoves hfsm hstep with ⟨hno, rfl⟩ | ⟨line, rest, hinp, hexec⟩
    · exact ⟨by rw [hfsm]; decide, fun _ => rfl, fun h => absurd hfsm h⟩
    · have hline : Config.newline ∈ u.inp := by rw [hinp]; simp
      refine ⟨?_, fun hno => absurd hline hno, fun hne => ⟨line, rest, hinp, ?_⟩⟩
      · rcases exec_decodeLine_cases hexec with h | ⟨h, -⟩ | ⟨h, -⟩ | ⟨h, -⟩ <;> rw [h] <;> decide
      · exact (exec_decodeLine_cases hexec).resolve_left hne

/-- Settles O51: an error ends an operation by `raise`, which writes the report, `fsm` and the result only. -/
theorem errorReportsOnceAndKeepsTheCursor : Obligations.ErrorReportsOnceAndKeepsTheCursor := by
  intro i op s t kind info hop hexec hraised
  cases i <;> cases hop
  case crc16 | decode => cases hexec; cases hraised
  case encode p =>
    rcases exec_encode_cases hexec with ⟨_, _, _, rfl⟩ | rfl <;> cases hraised
    exact ⟨rfl, rfl, rfl, rfl, by decide, by simp⟩
  case bootscan =>
    obtain ⟨u, hread, hout, -, -, hend⟩ := exec_bootscan_cases hexec
    rcases hend with ⟨off, -, rfl⟩ | rfl | ⟨off, -, rfl⟩ | ⟨-, rfl⟩ <;> cases hraised
    exact ⟨rfl, hread.cursor, hread.pending, hread.inp, by decide, by simp [hout]⟩
  case append p =>
    rcases exec_append_cases hexec with rfl | rfl | ⟨u, hstore, rfl | rfl | ⟨-, rfl⟩⟩ <;> cases hraised
    · exact ⟨rfl, rfl, rfl, rfl, by decide, by simp⟩
    · exact ⟨rfl, rfl, rfl, rfl, by decide, by simp⟩
    · exact ⟨rfl, hstore.cursor, hstore.pending, hstore.inp, by decide, by simp [hstore.out]⟩
  case eraseall =>
    obtain ⟨u, hstore, -, hend⟩ := exec_eraseall_cases hexec
    rcases hend with rfl | ⟨off, -, rfl⟩ | ⟨-, rfl⟩ <;> cases hraised
    exact ⟨rfl, hstore.cursor, hstore.pending, hstore.inp, by decide, by simp [hstore.out]⟩
  case readall =>
    obtain ⟨u, hread, hout, -, hend⟩ := exec_readall_cases hexec
    rcases hend with ⟨b, rfl⟩ | ⟨off, -, rfl⟩ | ⟨-, rfl⟩ <;> cases hraised
    exact ⟨rfl, hread.cursor, hread.pending, hread.inp, by decide, by simp [hout]⟩

/-- Settles O54: instruction by instruction, by what reading and storing leave alone. -/
theorem onlyTheNamedWritersWrite : Obligations.OnlyTheNamedWritersWrite := by
  intro i s t hexec
  cases i
  case erase | write | read | emptyLine | unrecognisedLine | crc16 | decode =>
    cases hexec
    exact ⟨fun _ _ => rfl, fun _ _ _ _ => .inl rfl, rfl, rfl⟩
  case reset =>
    cases hexec
    exact ⟨fun _ _ => rfl, fun hne => absurd rfl hne, rfl, rfl⟩
  case encode p =>
    rcases exec_encode_cases hexec with ⟨_, _, _, rfl⟩ | rfl <;>
      exact ⟨fun _ _ => rfl, fun _ _ _ _ => .inl rfl, rfl, rfl⟩
  case bootscan =>
    obtain ⟨u, hread, -, -, -, hend⟩ := exec_bootscan_cases hexec
    rcases hend with ⟨off, -, rfl⟩ | rfl | ⟨off, -, rfl⟩ | ⟨-, rfl⟩ <;>
      exact ⟨fun _ _ => hread.med, fun _ hne => absurd rfl hne, hread.params, hread.events⟩
  case append p =>
    refine ⟨fun _ hne => absurd rfl (hne p), fun _ _ _ hne => absurd rfl (hne p), ?_⟩
    rcases exec_append_cases hexec with rfl | rfl | ⟨u, hstore, rfl | rfl | ⟨-, rfl⟩⟩
    · exact ⟨rfl, rfl⟩
    · exact ⟨rfl, rfl⟩
    all_goals exact ⟨hstore.params, hstore.events⟩
  case eraseall =>
    refine ⟨fun hne => absurd rfl hne, fun _ _ hne => absurd rfl hne, ?_⟩
    obtain ⟨u, hstore, -, hend⟩ := exec_eraseall_cases hexec
    rcases hend with rfl | ⟨off, -, rfl⟩ | ⟨-, rfl⟩ <;> exact ⟨hstore.params, hstore.events⟩
  case readall =>
    obtain ⟨u, hread, -, -, hend⟩ := exec_readall_cases hexec
    rcases hend with ⟨b, rfl⟩ | ⟨off, -, rfl⟩ | ⟨hreset, rfl⟩
    · exact ⟨fun _ _ => hread.med, fun _ _ _ _ => .inl hread.cursor, hread.params, hread.events⟩
    · exact ⟨fun _ _ => hread.med, fun _ _ _ _ => .inl hread.cursor, hread.params, hread.events⟩
    · exact ⟨fun _ _ => hread.med, fun _ _ _ _ => .inr ⟨rfl, hreset, rfl, rfl⟩, hread.params, hread.events⟩

/-- Settles O55: instructions and the sequencer append, and only a reset empties. -/
theorem reportsOnlyGrowUntilReset : Obligations.ReportsOnlyGrowUntilReset := by
  intro s t hstep
  have grows : s.out <+: t.out ∨ ∃ v : State, t = v.resetBlock := by
    rcases step_cases s with ⟨u, hmoves, hs⟩ | ⟨b, rest, -, hs⟩ | ⟨rest, -, hs⟩ | ⟨bytes, rest, -, hs⟩ <;>
      rw [hs] at hstep
    · have hout : u.out = s.out := by rcases hmoves with ⟨-, rfl⟩ | ⟨rest, -, rfl⟩ <;> rfl
      exact hout ▸ blockStep_out_grows hstep
    · cases hstep
      exact .inl List.prefix_rfl
    · exact exec_out_grows (s := { s with events := rest }) hstep
    · exact benchStep_out_grows (s := { s with events := rest }) hstep
  exact grows.imp_right fun ⟨v, hv⟩ => hv ▸ ⟨rfl, rfl, rfl, rfl⟩

end Sys2Proof.Claims
end

