-- ==== Sys2Proof/Proofs/Liveness.lean ====
section
/-! PROOFS. Every finite input is worked off: a measure that every step of the block lowers until it waits, and the number
of transactions a step takes (43_command_fsm.md section 5; 20_memory.md section 7). -/

namespace Sys2Proof.Machine

/-- `IN` and the waiting events stay, and at most `m` channel answers are taken. -/
structure Advances (m : Nat) (s t : State) : Prop where
  inp : t.inp = s.inp
  events : t.events = s.events
  took : ∃ n ≤ m, ∀ j, answerAt t j = answerAt s (n + j)

theorem Advances.trans {m n : Nat} {s t u : State} (h : Advances m s t) (k : Advances n t u) : Advances (m + n) s u := by
  obtain ⟨a, ha, hta⟩ := h.took
  obtain ⟨b, hb, htb⟩ := k.took
  exact ⟨k.inp.trans h.inp, k.events.trans h.events, a + b, by omega, fun j => by rw [htb, hta, Nat.add_assoc]⟩

theorem Advances.mono {m n : Nat} {s t : State} (h : Advances m s t) (hmn : m ≤ n) : Advances n s t :=
  let ⟨a, ha, hta⟩ := h.took
  ⟨h.inp, h.events, a, ha.trans hmn, hta⟩

/-- No channel answer is taken where neither the answers nor their index change. -/
theorem Advances.of_same {s t : State} (hinp : t.inp = s.inp) (hevents : t.events = s.events)
    (hanswers : t.answers = s.answers) (htick : t.tick = s.tick) : Advances 0 s t :=
  ⟨hinp, hevents, 0, le_rfl, fun j => by rw [Nat.zero_add, answerAt_congr hanswers htick]⟩

theorem Advances.then_same {m : Nat} {s t u : State} (h : Advances m s t) (hinp : u.inp = t.inp)
    (hevents : u.events = t.events) (hanswers : u.answers = t.answers) (htick : u.tick = t.tick) : Advances m s u :=
  h.trans (.of_same hinp hevents hanswers htick)

theorem Advances.from_same {m : Nat} {s s' t : State} (h : Advances m s' t) (hinp : s'.inp = s.inp)
    (hevents : s'.events = s.events) (hanswers : s'.answers = s.answers) (htick : s'.tick = s.tick) : Advances m s t :=
  ((Advances.of_same hinp hevents hanswers htick).trans h).mono (Nat.zero_add m).le

/-- One channel answer is taken. -/
theorem Advances.of_asked {s t : State} (hinp : t.inp = s.inp) (hevents : t.events = s.events)
    (hanswers : t.answers = s.answers.tail) (htick : t.tick = s.tick + 1) : Advances 1 s t :=
  ⟨hinp, hevents, 1, le_rfl, fun j => by
    rw [Nat.add_comm, ← answerAt_asked, answerAt_congr (t := t) (s := s.asked) hanswers htick]⟩

theorem readSlot_advances {off : Offset} {s t : State} {e : Ended (Option (List Byte))} (h : readSlot off s = (e, t)) :
    Advances 1 s t := by
  rcases readSlot_cases h with ⟨-, -, rfl⟩ | ⟨-, rfl⟩ | ⟨-, rfl | rfl⟩ <;> exact .of_asked rfl rfl rfl rfl

theorem memWrite_advances {addr : Offset} {v : List Byte} {s t : State} {e : Ended Unit}
    (h : memWrite addr v s = (e, t)) : Advances 1 s t := by
  rcases memWrite_cases h with ⟨-, rfl⟩ | ⟨-, rfl⟩ | ⟨-, rfl | rfl⟩ <;> exact .of_asked rfl rfl rfl rfl

theorem bootScanOver_advances : ∀ {offs : List Offset} {s t : State} {e : Ended Recovery},
    bootScanOver offs s = (e, t) → Advances offs.length s t
  | [], _, _, _, h => by cases h; exact .of_same rfl rfl rfl rfl
  | off :: rest, s, t, e, h => by
    cases hr : readSlot off s with
    | mk e' u =>
      have first := readSlot_advances hr
      rw [bootScanOver, hr] at h
      rw [List.length_cons, Nat.add_comm]
      rcases e' with (_ | p) | _ | _
      · cases h; exact (first.mono (by omega)).then_same rfl rfl rfl rfl
      · exact first.trans (bootScanOver_advances h)
      · cases h; exact first.mono (by omega)
      · cases h; exact first.mono (by omega)

theorem readOver_advances : ∀ {offs : List Offset} {s t : State} {e : Ended Bool},
    readOver offs s = (e, t) → Advances offs.length s t
  | [], _, _, _, h => by cases h; exact .of_same rfl rfl rfl rfl
  | off :: rest, s, t, e, h => by
    cases hr : readSlot off s with
    | mk e' u =>
      have first := readSlot_advances hr
      rw [readOver, hr] at h
      rw [List.length_cons, Nat.add_comm]
      rcases e' with (_ | p) | _ | _
      · cases h; exact first.mono (by omega)
      · have delivered : Advances 1 s (deliver p off u) := first.then_same rfl rfl rfl rfl
        exact delivered.trans (readOver_advances h)
      · cases h; exact first.mono (by omega)
      · cases h; exact first.mono (by omega)

theorem eraseOver_advances : ∀ {offs : List Offset} {s t : State} {e : Ended Unit},
    eraseOver offs s = (e, t) → Advances offs.length s t
  | [], _, _, _, h => by cases h; exact .of_same rfl rfl rfl rfl
  | off :: rest, s, t, e, h => by
    cases hr : memWrite off [Config.eraseByte] { s with scanOff := off } with
    | mk e' u =>
      have first : Advances 1 s u := (memWrite_advances hr).from_same rfl rfl rfl rfl
      rw [eraseOver, hr] at h
      rw [List.length_cons, Nat.add_comm]
      rcases e' with _ | _ | _
      · exact first.trans (eraseOver_advances h)
      · cases h; exact first.mono (by omega)
      · cases h; exact first.mono (by omega)

theorem appendEntry_advances {p : List Byte} {s t : State} {e : Ended Unit} (h : appendEntry p s = (e, t)) :
    Advances 1 s t := by
  rcases appendEntry_cases h with ⟨-, -, rfl⟩ | ⟨-, -, -, rfl⟩ | ⟨-, -, u, hwrite, hend⟩
  · exact Advances.mono (.of_same rfl rfl rfl rfl) (by omega)
  · exact Advances.mono (.of_same rfl rfl rfl rfl) (by omega)
  · have written : Advances 1 s u := (memWrite_advances hwrite).from_same rfl rfl rfl rfl
    rcases hend with ⟨-, rfl⟩ | ⟨-, rfl⟩ | ⟨-, rfl⟩
    · exact written.then_same rfl rfl rfl rfl
    · exact written
    · exact written

/-- The end of an operation that no reset struck takes no further answer. -/
theorem complete_advances {α : Type} {op : OpSel} {f : α → OpResult} {e : Ended α} (he : e ≠ .reset) (s : State) :
    Advances 0 s (complete op f (e, s)) := by
  cases e with
  | done a => exact .of_same rfl rfl rfl rfl
  | raised kind info => exact .of_same rfl rfl rfl rfl
  | reset => exact absurd rfl he

theorem afterBootScan_advances (s : State) : Advances 0 s (afterBootScan s) := by
  unfold afterBootScan
  split <;> exact .of_same rfl rfl rfl rfl

theorem afterOk_advances (s : State) : Advances 0 s (afterOk s) := by
  unfold afterOk
  split <;> exact .of_same rfl rfl rfl rfl

theorem afterRead_advances (s : State) : Advances 0 s (afterRead s) := by
  unfold afterRead
  split
  · split <;> exact .of_same rfl rfl rfl rfl
  · exact .of_same rfl rfl rfl rfl

/-- A whole operation between the slot offsets and the sequencer, no reset striking: at most 32 answers. -/
theorem complete_after_advances {α : Type} {op : OpSel} {f : α → OpResult} {after : State → State} {s : State}
    {r : Ended α × State} (hscan : Advances 32 s r.2) (hr : r.1 ≠ .reset) (hafter : ∀ v, Advances 0 v (after v)) :
    Advances 32 s (after (complete op f r)) :=
  (hscan.trans (complete_advances hr r.2)).trans (hafter _)

/-- Outside `UserInput`, a step of the block that no reset strikes keeps `IN` and takes at most 32 answers. -/
theorem action_step_advances {s t : State} (hfsm : s.fsm ≠ .userInput) (hno : ¬ ResetStrikes 32 s)
    (hstep : blockStep s = .next t) : Advances 32 s t := by
  have unstruck : ∀ {n : Nat} {s' : State}, n ≤ 32 → (∀ j, answerAt s' j = answerAt s j) → ¬ ResetStrikes n s' :=
    fun hn hsame hstruck => hno (by simpa only [ResetStrikes, ChannelOk, hsame] using hstruck.mono hn)
  have h32 := length_slotOffsets
  cases hcase : s.fsm with
  | userInput => exact absurd hcase hfsm
  | bootScan =>
    rw [blockStep, hcase] at hstep
    cases hstep
    exact complete_after_advances (h32 ▸ bootScanOver_advances rfl)
      (fun h => unstruck h32.le (fun _ => rfl) (bootScanOver_reset (Prod.ext h rfl))) afterBootScan_advances
  | erase =>
    rw [blockStep, hcase] at hstep
    cases hstep
    exact complete_after_advances (h32 ▸ eraseOver_advances rfl)
      (fun h => unstruck h32.le (fun _ => rfl) (eraseOver_reset (Prod.ext h rfl))) afterOk_advances
  | write =>
    rw [blockStep, hcase] at hstep
    cases hstep
    exact complete_after_advances ((appendEntry_advances rfl).mono (by omega))
      (fun h => unstruck (by omega) (fun _ => rfl) (appendEntry_reset (Prod.ext h rfl))) afterOk_advances
  | read =>
    rw [blockStep, hcase] at hstep
    cases hstep
    have read_back : Advances 32 { s with yielded := [] } (readOver slotOffsets { s with yielded := [] }).2 :=
      h32 ▸ readOver_advances rfl
    exact complete_after_advances (read_back.from_same rfl rfl rfl rfl)
      (fun h => unstruck (s' := { s with yielded := [] }) h32.le (fun _ => rfl) (readOver_reset (Prod.ext h rfl)))
      afterRead_advances

/-- A line's instruction leaves the input and the channel alone. -/
theorem exec_decodeLine_advances {line : List Byte} {s t : State} (hexec : exec (decodeLine line) s = .next t) :
    Advances 0 s t := by
  rcases decodeLine_cases line with ⟨-, hi⟩ | ⟨-, hi⟩ | ⟨-, hi⟩ | ⟨-, hi⟩ | ⟨-, hi⟩ <;>
    rw [hi] at hexec <;> cases hexec <;> exact .of_same rfl rfl rfl rfl

/-! ### The measure -/

/-- The steps a control state is away from `UserInput`, when no line comes between. -/
def Fsm.rank : Fsm → Nat
  | .bootScan => 2
  | .erase => 1
  | .write => 1
  | .read => 1
  | .userInput => 0

/-- The work ahead: two steps for each byte of `IN`, and those of the control state. -/
def State.work (s : State) : Nat := 2 * s.inp.length + s.fsm.rank

/-- The block's step always has a next state. -/
theorem blockStep_next (s : State) : ∃ t, blockStep s = .next t := by
  unfold blockStep
  split
  case h_5 =>
    unfold userInputStep
    split
    · exact ⟨_, rfl⟩
    · exact exec_next _ _
  all_goals exact ⟨_, rfl⟩

/-- In an action state that no reset strikes, the step brings the control state nearer to `UserInput`. -/
theorem action_step_rank {s t : State} (hmoves : BlockMoves s s) (hfsm : s.fsm ≠ .userInput)
    (hno : ¬ ResetStrikes 32 s) (hstep : step s = .next t) : t.fsm.rank < s.fsm.rank := by
  cases hcase : s.fsm with
  | userInput => exact absurd hcase hfsm
  | bootScan =>
    rcases bootScan_step_cases hmoves hcase hstep with ⟨hreset, -⟩ | h | h | h
    · exact absurd hreset hno
    all_goals rw [h]; decide
  | erase =>
    rcases erase_step_cases hmoves hcase hstep with ⟨hreset, -⟩ | h
    · exact absurd hreset hno
    · rw [h]; decide
  | write =>
    rcases write_step_cases hmoves hcase hstep with ⟨hreset, -⟩ | h
    · exact absurd (hreset.mono (by omega)) hno
    · rw [h]; decide
  | read =>
    rcases read_step_cases hmoves hcase hstep with ⟨hreset, -⟩ | h
    · exact absurd hreset hno
    · rw [h]; decide

/-- A taken line lowers the work ahead: it costs at least the terminator, and its command at most one step more. -/
theorem line_step_work {line rest : List Byte} {s t : State} (hinp : s.inp = line ++ Config.newline :: rest)
    (hexec : exec (decodeLine line) (s.tookLine line rest) = .next t) : t.work < s.work := by
  have hrest : t.inp = rest := (exec_decodeLine_advances hexec).inp
  have hrank : t.fsm.rank ≤ 1 := by
    rcases exec_decodeLine_cases hexec with h | ⟨h, -⟩ | ⟨h, -⟩ | ⟨h, -⟩ <;> rw [h] <;> decide
  simp only [State.work, hrest, hinp, List.length_append, List.length_cons]
  omega

/-- A step that no reset strikes, with no event waiting: the block waits without a complete line, or the work ahead gets
less. -/
theorem step_progress {s : State} (hevents : s.events = []) (hno : ¬ ResetStrikes 32 s) :
    (s.fsm = .userInput ∧ Config.newline ∉ s.inp ∧ step s = .next s) ∨
    ∃ t, step s = .next t ∧ t.events = [] ∧ t.work < s.work ∧ ∃ n ≤ 32, ∀ j, answerAt t j = answerAt s (n + j) := by
  have hmoves : BlockMoves s s := .inl ⟨hevents, rfl⟩
  obtain ⟨t, hblock⟩ := blockStep_next s
  have hstep : step s = .next t := (step_blockMoves hmoves).trans hblock
  by_cases hfsm : s.fsm = .userInput
  · rcases userInput_step_cases hmoves hfsm hstep with ⟨hnone, rfl⟩ | ⟨line, rest, hinp, hexec⟩
    · exact .inl ⟨hfsm, hnone, hstep⟩
    · have taken := exec_decodeLine_advances hexec
      obtain ⟨n, hn, hanswers⟩ := taken.took
      exact .inr ⟨t, hstep, taken.events.trans hevents, line_step_work hinp hexec, n, by omega, hanswers⟩
  · have acted := action_step_advances hfsm hno hblock
    have hrank := action_step_rank hmoves hfsm hno hstep
    exact .inr ⟨t, hstep, acted.events.trans hevents, by simp only [State.work, acted.inp]; omega, acted.took⟩

/-- A channel that answers, by success or failure, lets no reset strike. -/
theorem not_resetStrikes {n : Nat} {s : State} (h : ∀ j < n, answerAt s j = .ok ∨ answerAt s j = .fail) :
    ¬ ResetStrikes n s := by
  rintro ⟨j, hj, -, hreset⟩
  rcases h j hj with ha | ha <;> rw [ha] at hreset <;> exact absurd hreset (by decide)

theorem run_succ {k : Nat} {s t : State} (h : step s = .next t) :
    Host.Core.run Sys2Proof.core (k + 1) s = Host.Core.run Sys2Proof.core k t := by
  simp only [Host.Core.run, show Sys2Proof.core.step s = _ from h]

/-- A block that waits stays as it is. -/
theorem run_of_waiting {s : State} (h : step s = .next s) : ∀ k, Host.Core.run Sys2Proof.core k s = .next s
  | 0 => rfl
  | k + 1 => (run_succ h).trans (run_of_waiting h k)

/-- As many steps as there is work ahead end in `UserInput` with no complete line left. -/
theorem run_worksOff : ∀ {k : Nat} {s : State}, s.events = [] → s.work ≤ k →
    (∀ j < 32 * k, answerAt s j = .ok ∨ answerAt s j = .fail) →
    ∃ t, Host.Core.run Sys2Proof.core k s = .next t ∧ t.fsm = .userInput ∧ Config.newline ∉ t.inp
  | 0, s, _, hwork, _ => by
    simp only [State.work, Nat.le_zero, Nat.add_eq_zero_iff, Nat.mul_eq_zero, List.length_eq_zero_iff] at hwork
    obtain ⟨hinp, hrank⟩ := hwork
    refine ⟨s, rfl, ?_, by simp_all⟩
    cases hfsm : s.fsm <;> simp_all [Fsm.rank]
  | k + 1, s, hevents, hwork, hanswers => by
    rcases step_progress hevents (not_resetStrikes fun j hj => hanswers j (by omega)) with
      ⟨hfsm, hnone, hstep⟩ | ⟨t, hstep, hevents', hless, n, hn, htook⟩
    · exact ⟨s, run_of_waiting hstep (k + 1), hfsm, hnone⟩
    · rw [run_succ hstep]
      exact run_worksOff hevents' (by omega) fun j hj => htook j ▸ hanswers (n + j) (by omega)

end Sys2Proof.Machine

namespace Sys2Proof.Claims
open Sys2Proof Sys2Proof.Machine

/-- Settles O50: the work ahead is at most two steps for each byte of `IN` and two more. -/
theorem everyFiniteInputIsWorkedOff : Obligations.EveryFiniteInputIsWorkedOff := by
  intro s hevents hanswers
  have hrank : s.fsm.rank ≤ 2 := by cases s.fsm <;> decide
  exact run_worksOff hevents (by simp only [State.work]; omega) hanswers

end Sys2Proof.Claims
end

