-- ==== Sys2Proof/Proofs/Observation.lean ====
section
/-! PROOFS. Nothing the block does depends on its past reports or on the trace: put any reports and transactions before a
state's own, and every operation does the same behind them (10_state.md section 4). -/

namespace Sys2Proof.Machine

/-- The state with these reports and transactions before its own. -/
def State.behind (o : List Report) (l : List Txn) (s : State) : State :=
  { s with out := o ++ s.out, trace := l ++ s.trace }

/-- A state is its own reports and transactions put before nothing. -/
theorem behind_unobserved (s : State) : s.unobserved.behind s.out s.trace = s := by
  simp [State.behind, State.unobserved]

/-- A reset empties what stood before, too. -/
theorem resetBlock_behind (o : List Report) (l : List Txn) (s : State) :
    (s.behind o l).resetBlock = s.resetBlock.behind [] l := rfl

theorem raise_behind (op : OpSel) (kind : ErrKind) (info : Nat) (o : List Report) (l : List Txn) (s : State) :
    (s.behind o l).raise op kind info = (s.raise op kind info).behind o l := by
  simp [State.behind, State.raise]

theorem emit_behind (r : Report) (o : List Report) (l : List Txn) (s : State) :
    (s.behind o l).emit r = (s.emit r).behind o l := by
  simp [State.behind, State.emit]

theorem deliver_behind (p : List Byte) (off : Offset) (o : List Report) (l : List Txn) (s : State) :
    deliver p off (s.behind o l) = (deliver p off s).behind o l := by
  by_cases h : s.fsm = .read <;> simp [State.behind, deliver, h]

theorem tookLine_behind (line rest : List Byte) (o : List Report) (l : List Txn) (s : State) :
    (s.behind o l).tookLine line rest = (s.tookLine line rest).behind o l := by
  simp [State.behind, State.tookLine]

/-! ### The operations -/

theorem memRead_behind (addr : Offset) (n : Nat) (o : List Report) (l : List Txn) (s : State) :
    memRead addr n (s.behind o l) = Prod.map id (State.behind o l) (memRead addr n s) := by
  have same_answer : answerAt (s.behind o l) 0 = answerAt s 0 := rfl
  unfold memRead
  rw [same_answer]
  cases answerAt s 0 <;> simp [State.behind, State.asked, State.record]

theorem memWrite_behind (addr : Offset) (v : List Byte) (o : List Report) (l : List Txn) (s : State) :
    memWrite addr v (s.behind o l) = Prod.map id (State.behind o l) (memWrite addr v s) := by
  have same_answer : answerAt (s.behind o l) 0 = answerAt s 0 := rfl
  unfold memWrite
  rw [same_answer]
  cases answerAt s 0 <;> simp [State.behind, State.asked, State.record, State.stored, State.torn]

theorem encodeSlot_behind (p : List Byte) (o : List Report) (l : List Txn) (s : State) :
    encodeSlot p (s.behind o l) = Prod.map id (State.behind o l) (encodeSlot p s) := by
  cases hlegal : legalPayload p with
  | true => rw [encodeSlot_legal hlegal, encodeSlot_legal hlegal]; rfl
  | false => rw [encodeSlot_illegal hlegal, encodeSlot_illegal hlegal]; rfl

theorem readSlot_behind (off : Offset) (o : List Report) (l : List Txn) (s : State) :
    readSlot off (s.behind o l) = Prod.map id (State.behind o l) (readSlot off s) := by
  have hread := memRead_behind off Config.slotSize o l { s with scanOff := off }
  unfold readSlot
  rw [show ({ s.behind o l with scanOff := off } : State) = State.behind o l { s with scanOff := off } from rfl, hread]
  rcases memRead off Config.slotSize { s with scanOff := off } with ⟨_ | _ | _, t⟩ <;> rfl

theorem bootScanOver_behind (o : List Report) (l : List Txn) : ∀ (offs : List Offset) (s : State),
    bootScanOver offs (s.behind o l) = Prod.map id (State.behind o l) (bootScanOver offs s)
  | [], _ => rfl
  | off :: rest, s => by
    rw [bootScanOver, bootScanOver, readSlot_behind]
    rcases readSlot off s with ⟨(_ | p) | _ | _, t⟩
    · rfl
    · exact bootScanOver_behind o l rest t
    · rfl
    · rfl

theorem eraseOver_behind (o : List Report) (l : List Txn) : ∀ (offs : List Offset) (s : State),
    eraseOver offs (s.behind o l) = Prod.map id (State.behind o l) (eraseOver offs s)
  | [], _ => rfl
  | off :: rest, s => by
    have hwrite := memWrite_behind off [Config.eraseByte] o l { s with scanOff := off }
    rw [eraseOver, eraseOver,
      show ({ s.behind o l with scanOff := off } : State) = State.behind o l { s with scanOff := off } from rfl, hwrite]
    rcases memWrite off [Config.eraseByte] { s with scanOff := off } with ⟨_ | _ | _, t⟩
    · exact eraseOver_behind o l rest t
    · rfl
    · rfl

theorem readOver_behind (o : List Report) (l : List Txn) : ∀ (offs : List Offset) (s : State),
    readOver offs (s.behind o l) = Prod.map id (State.behind o l) (readOver offs s)
  | [], _ => rfl
  | off :: rest, s => by
    rw [readOver, readOver, readSlot_behind]
    rcases readSlot off s with ⟨(_ | p) | _ | _, t⟩
    · rfl
    · exact (congrArg (readOver rest) (deliver_behind p off o l t)).trans (readOver_behind o l rest (deliver p off t))
    · rfl
    · rfl

theorem appendEntry_behind (p : List Byte) (o : List Report) (l : List Txn) (s : State) :
    appendEntry p (s.behind o l) = Prod.map id (State.behind o l) (appendEntry p s) := by
  unfold appendEntry
  rw [show (s.behind o l).cursor = s.cursor from rfl, encodeSlot_behind]
  split
  · rfl
  · rcases encodeSlot p s with ⟨frame | _ | _, t⟩
    · have hwrite := memWrite_behind t.cursor frame o l t
      dsimp only [Prod.map, id]
      rw [show (t.behind o l).cursor = t.cursor from rfl, hwrite]
      rcases memWrite t.cursor frame t with ⟨_ | _ | _, u⟩ <;> rfl
    · rfl
    · rfl

/-! ### Instructions and steps -/

/-- A step function at `u` does the same whatever stands before: it ends in one state behind the same reports and
transactions, or a reset empties the reports. -/
def Oblivious (f : State → Host.Outcome State Fault Refusal) (u : State) : Prop :=
  ∃ v, (∀ o l, f (u.behind o l) = .next (v.behind o l)) ∨
    ((∃ w : State, v = w.resetBlock) ∧ ∀ o l, f (u.behind o l) = .next (v.behind [] l))

/-- An operation that does the same whatever stands before ends the same. -/
theorem oblivious_complete {α : Type} {op : OpSel} {f : α → OpResult} {g : State → Ended α × State} {u : State}
    (hg : ∀ o l, g (u.behind o l) = Prod.map id (State.behind o l) (g u)) :
    Oblivious (fun s => .next (complete op f (g s))) u := by
  refine ⟨complete op f (g u), ?_⟩
  simp only [hg]
  rcases g u with ⟨a | ⟨kind, info⟩ | _, v⟩
  · exact .inl fun _ _ => rfl
  · exact .inl fun o l => congrArg _ (raise_behind op kind info o l v)
  · exact .inr ⟨⟨v, rfl⟩, fun o l => congrArg _ (resetBlock_behind o l v)⟩

/-- An instruction that is one update of the state, and an update that does not look back. -/
theorem oblivious_of_update {i : Instr} {f : State → State} (hexec : ∀ s, exec i s = .next (f s))
    (hf : ∀ o l s, f (State.behind o l s) = (f s).behind o l) (u : State) : Oblivious (exec i) u :=
  ⟨f u, .inl fun o l => by rw [hexec, hf]⟩

theorem exec_oblivious (i : Instr) (u : State) : Oblivious (exec i) u := by
  cases i
  case reset => exact ⟨u.resetBlock, .inr ⟨⟨u, rfl⟩, fun _ _ => rfl⟩⟩
  case erase | write | read | emptyLine | crc16 | decode =>
    exact oblivious_of_update (fun _ => rfl) (fun _ _ _ => rfl) u
  case unrecognisedLine line =>
    exact oblivious_of_update (fun _ => rfl) (fun o l s => by rw [emit_behind]; rfl) u
  case encode p => exact oblivious_complete fun o l => encodeSlot_behind p o l u
  case bootscan => exact oblivious_complete fun o l => bootScanOver_behind o l slotOffsets u
  case append p => exact oblivious_complete fun o l => appendEntry_behind p o l u
  case eraseall => exact oblivious_complete fun o l => eraseOver_behind o l slotOffsets u
  case readall =>
    exact oblivious_complete (g := fun s => readOver slotOffsets { s with yielded := [] }) fun o l =>
      readOver_behind o l slotOffsets { u with yielded := [] }

theorem afterBootScan_behind (o : List Report) (l : List Txn) (s : State) :
    afterBootScan (s.behind o l) = (afterBootScan s).behind o l := by
  unfold afterBootScan
  rw [show (s.behind o l).result = s.result from rfl]
  split
  · rfl
  · rw [emit_behind]; rfl
  · rfl

theorem afterOk_behind (o : List Report) (l : List Txn) (s : State) :
    afterOk (s.behind o l) = (afterOk s).behind o l := by
  unfold afterOk
  rw [show (s.behind o l).result = s.result from rfl]
  split <;> rfl

theorem afterRead_behind (o : List Report) (l : List Txn) (s : State) :
    afterRead (s.behind o l) = (afterRead s).behind o l := by
  unfold afterRead
  rw [show (s.behind o l).result = s.result from rfl, show (s.behind o l).params = s.params from rfl,
    show (s.behind o l).yielded = s.yielded from rfl, emit_behind]
  split
  · split <;> rfl
  · rfl

/-- What the sequencer does afterwards does not look back either; after a reset it does nothing. -/
theorem oblivious_onNext {f : State → State} (hf : ∀ o l s, f (State.behind o l s) = (f s).behind o l)
    (hreset : ∀ w : State, f w.resetBlock = w.resetBlock) (i : Instr) (u : State) :
    Oblivious (fun s => onNext f (exec i s)) u := by
  obtain ⟨v, h | ⟨⟨w, rfl⟩, h⟩⟩ := exec_oblivious i u
  · exact ⟨f v, .inl fun o l => by simp only [h, onNext_next, hf]⟩
  · exact ⟨w.resetBlock, .inr ⟨⟨w, rfl⟩, fun o l => by simp only [h, onNext_next, hf, hreset]⟩⟩

/-- Two step functions that agree behind every history are oblivious together. -/
theorem Oblivious.congr {f g : State → Host.Outcome State Fault Refusal} {u : State} (h : Oblivious f u)
    (hfg : ∀ o l, g (u.behind o l) = f (u.behind o l)) : Oblivious g u := by
  obtain ⟨v, h⟩ := h
  exact ⟨v, by simpa only [hfg] using h⟩

theorem userInputStep_oblivious (u : State) : Oblivious userInputStep u := by
  cases hsplit : splitLine u.inp with
  | none =>
    refine ⟨u, .inl fun o l => ?_⟩
    rw [userInputStep, show (u.behind o l).inp = u.inp from rfl, hsplit]
  | some split =>
    obtain ⟨v, h⟩ := exec_oblivious (decodeLine split.1) (u.tookLine split.1 split.2)
    have taken : ∀ o l, userInputStep (u.behind o l) =
        exec (decodeLine split.1) ((u.tookLine split.1 split.2).behind o l) := fun o l => by
      rw [userInputStep, show (u.behind o l).inp = u.inp from rfl, hsplit, ← tookLine_behind]
    exact ⟨v, by simpa only [taken] using h⟩

theorem blockStep_oblivious (u : State) : Oblivious blockStep u := by
  cases hfsm : u.fsm with
  | bootScan =>
    refine (oblivious_onNext afterBootScan_behind afterBootScan_resetBlock .bootscan u).congr fun o l => ?_
    rw [blockStep, show (u.behind o l).fsm = _ from hfsm]
  | erase =>
    refine (oblivious_onNext afterOk_behind afterOk_resetBlock .eraseall u).congr fun o l => ?_
    rw [blockStep, show (u.behind o l).fsm = _ from hfsm]
  | write =>
    refine (oblivious_onNext afterOk_behind afterOk_resetBlock (.append (pendingPayload u)) u).congr fun o l => ?_
    rw [blockStep, show (u.behind o l).fsm = _ from hfsm]
    rfl
  | read =>
    refine (oblivious_onNext afterRead_behind afterRead_resetBlock .readall u).congr fun o l => ?_
    rw [blockStep, show (u.behind o l).fsm = _ from hfsm]
  | userInput =>
    refine (userInputStep_oblivious u).congr fun o l => ?_
    rw [blockStep, show (u.behind o l).fsm = _ from hfsm]

/-- A bench call does the same whatever stands before, or is refused whatever stands before. -/
theorem benchStep_oblivious (bytes : List Byte) (u : State) :
    Oblivious (benchStep bytes) u ∨ ∃ why, ∀ o l, benchStep bytes (u.behind o l) = .refused why := by
  cases hdecode : decode (.call bytes) with
  | ok i => exact .inl ((exec_oblivious i u).congr fun o l => benchStep_of_decode hdecode _)
  | error why => exact .inr ⟨_, fun o l => benchStep_of_undefined hdecode _⟩

/-- So does a step. -/
theorem step_oblivious (u : State) : Oblivious step u ∨ ∃ why, ∀ o l, step (u.behind o l) = .refused why := by
  rcases step_cases u with ⟨v, hmoves, -⟩ | ⟨b, rest, hevents, -⟩ | ⟨rest, hevents, -⟩ | ⟨bytes, rest, hevents, -⟩
  · have moves_behind : ∀ o l, BlockMoves (u.behind o l) (v.behind o l) := fun o l => by
      rcases hmoves with ⟨hevents, rfl⟩ | ⟨rest, hevents, rfl⟩
      · exact .inl ⟨hevents, rfl⟩
      · exact .inr ⟨rest, hevents, rfl⟩
    obtain ⟨w, h⟩ := blockStep_oblivious v
    exact .inl ⟨w, by simpa only [step_blockMoves (moves_behind _ _)] using h⟩
  · refine .inl ⟨{ u with events := rest, inp := u.inp ++ [b] }, .inl fun o l => ?_⟩
    rw [step, wholeStep, show (u.behind o l).events = _ from hevents]
    rfl
  · obtain ⟨w, h⟩ := exec_oblivious .reset { u with events := rest }
    have hstep : ∀ o l, step (u.behind o l) = exec .reset (State.behind o l { u with events := rest }) := fun o l => by
      rw [step, wholeStep, show (u.behind o l).events = _ from hevents]
      rfl
    exact .inl ⟨w, by simpa only [hstep] using h⟩
  · have hstep : ∀ o l, step (u.behind o l) = benchStep bytes (State.behind o l { u with events := rest }) :=
      fun o l => step_call hevents
    rcases benchStep_oblivious bytes { u with events := rest } with ⟨w, h⟩ | ⟨why, h⟩
    · exact .inl ⟨w, by simpa only [hstep] using h⟩
    · exact .inr ⟨why, by simpa only [hstep] using h⟩

end Sys2Proof.Machine

namespace Sys2Proof.Claims
open Sys2Proof Sys2Proof.Machine

/-- Settles O56: both states are the blotted-out state behind their own reports and transactions. -/
theorem reportsAndTraceAreNeverRead : Obligations.ReportsAndTraceAreNeverRead := by
  intro s s' t hsame hstep
  rw [← behind_unobserved s] at hstep
  have hs' := behind_unobserved s'
  rw [← hsame] at hs'
  rcases step_oblivious s.unobserved with ⟨v, h | ⟨⟨w, rfl⟩, h⟩⟩ | ⟨why, h⟩
  · rw [h] at hstep
    cases hstep
    exact ⟨v.behind s'.out s'.trace, by rw [← h, hs'], rfl, ⟨v.trace, rfl, rfl⟩, .inl ⟨v.out, rfl, rfl⟩⟩
  · rw [h] at hstep
    cases hstep
    exact ⟨w.resetBlock.behind [] s'.trace, by rw [← h s'.out, hs'], rfl, ⟨w.resetBlock.trace, rfl, rfl⟩,
      .inr ⟨rfl, rfl, rfl⟩⟩
  · rw [h] at hstep
    cases hstep

end Sys2Proof.Claims
end

