-- ==== Sys2Proof/Proofs/BootScan.lean ====
section
/-! PROOFS. BOOTSCAN and READALL behind valid slots: at the first invalid slot, on a full log, at a failed read, and when a
reset strikes (42_log_engine.md sections 2 and 5; 70_reset_and_hazards.md section 1). -/

namespace Sys2Proof.Machine

/-- The reads of the first `k` slots and the one after them. -/
theorem readTxns_succ (k : Nat) : readTxns (k + 1) = readTxns k ++ [.read (slotOffset k) Config.slotSize .ok] := by
  simp [readTxns, List.range_succ]

/-- The first `k` slots hold entries. -/
theorem LeadingEntries.isSome {p : Config.Params} {m : Memory} {ps : List (List Byte)} (h : LeadingEntries p m ps) :
    ∀ i < ps.length, (entryAt p m i).isSome = true := fun i hi => by rw [h i hi]; rfl

/-! ### The state after slot reads -/

@[simp] theorem answerAt_scanned (n : Nat) (so : Offset) (sb : List Byte) (ca : Half) (l : List Txn) (s : State) (j : Nat) :
    answerAt (s.scanned n so sb ca l) j = answerAt s (n + j) := answerAt_spent s n j

@[simp] theorem scanned_params (n : Nat) (so : Offset) (sb : List Byte) (ca : Half) (l : List Txn) (s : State) :
    (s.scanned n so sb ca l).params = s.params := rfl
@[simp] theorem scanned_med (n : Nat) (so : Offset) (sb : List Byte) (ca : Half) (l : List Txn) (s : State) :
    (s.scanned n so sb ca l).med = s.med := rfl

/-- The read of slot `k` behind the first `k`, as one more slot read. -/
theorem sawSlot_scanned {k : Nat} (hk : k < 32) (so : Offset) (sb : List Byte) (ca : Half) (s : State) :
    ∃ c, (s.scanned k so sb ca (readTxns k)).sawSlot (slotOffset k) =
      s.scanned (k + 1) (slotOffset k) (slotImage s.med k) c (readTxns (k + 1)) := by
  have hsaw := sawSlot_eq (slotOffset k) (s.scanned k so sb ca (readTxns k))
  rw [scanned_scanned, ← readTxns_succ, scanned_med, slotOffset_toNat hk.le] at hsaw
  exact ⟨_, hsaw⟩

/-- A slot read that fails behind other reads leaves `SLOTBUF` and `CRC_ACC` as they were. -/
theorem scanned_failed (k : Nat) (off so : Offset) (sb : List Byte) (ca : Half) (l : List Txn) (s : State) :
    ({ (s.scanned k so sb ca l).asked.record (.read off 64 .fail) with scanOff := off } : State) =
      s.scanned (k + 1) off sb ca (l ++ [.read off 64 .fail]) := by
  simp [State.scanned, State.spent, State.asked, State.record, Nat.add_assoc]

/-! ### BOOTSCAN -/

/-- BOOTSCAN passes the first `k` slots when they hold entries, one read each. -/
theorem bootScanOver_leading {s : State} {k : Nat} (hk : k < 32) (hvalid : ∀ i < k, (entryAt s.params s.med i).isSome = true)
    (hok : ChannelOk s k) :
    ∃ so sb ca, bootScanOver slotOffsets s =
      bootScanOver (slotOffset k :: slotOffsets.drop (k + 1)) (s.scanned k so sb ca (readTxns k)) := by
  have hlen : ((List.range k).map slotOffset).length = k := by simp
  have hslots : ∀ off ∈ (List.range k).map slotOffset,
      (slotPayload s.params.limit (Memory.bytes s.med off.toNat Config.slotSize)).isSome = true := fun off hoff => by
    obtain ⟨i, hi, rfl⟩ := List.mem_map.mp hoff
    rw [List.mem_range] at hi
    rw [entryAt_eq (by omega)]
    exact hvalid i hi
  obtain ⟨so, sb, ca, h⟩ := bootScanOver_valid (slotOffset k :: slotOffsets.drop (k + 1)) _ s (hlen.symm ▸ hok) hslots
  rw [← slotOffsets_split hk, hlen, List.map_map] at h
  exact ⟨so, sb, ca, h⟩

/-- BOOTSCAN at the first invalid slot (R107). -/
theorem bootScanOver_room {s : State} {k : Nat} (hk : k < 32) (hvalid : ∀ i < k, (entryAt s.params s.med i).isSome = true)
    (hinvalid : entryAt s.params s.med k = none) (hok : ChannelOk s (k + 1)) :
    ∃ c, bootScanOver slotOffsets s = (.done (.empty (slotOffset k)),
      { s.scanned (k + 1) (slotOffset k) (slotImage s.med k) c (readTxns (k + 1)) with cursor := slotOffset k }) := by
  obtain ⟨so, sb, ca, h⟩ := bootScanOver_leading hk hvalid (hok.mono (by omega))
  obtain ⟨c, hsaw⟩ := sawSlot_scanned hk so sb ca s
  refine ⟨c, ?_⟩
  rw [h, bootScanOver, readSlot_ok ((answerAt_scanned ..).trans (hok k (by omega))), scanned_params, scanned_med,
    entryAt_eq hk.le, hinvalid, hsaw]

/-- BOOTSCAN on a full log (R107 case 3). -/
theorem bootScanOver_full {s : State} (hvalid : ∀ i < 32, (entryAt s.params s.med i).isSome = true) (hok : ChannelOk s 32) :
    ∃ c, bootScanOver slotOffsets s = (.done .full,
      { s.scanned 32 (slotOffset 31) (slotImage s.med 31) c (readTxns 32) with
        cursor := BitVec.ofNat 32 Config.capacity }) := by
  obtain ⟨so, sb, ca, h⟩ := bootScanOver_leading (k := 31) (by omega) (fun i hi => hvalid i (by omega)) (hok.mono (by omega))
  obtain ⟨c, hsaw⟩ := sawSlot_scanned (k := 31) (by omega) so sb ca s
  obtain ⟨p, hp⟩ := Option.isSome_iff_exists.mp (hvalid 31 (by omega))
  refine ⟨c, ?_⟩
  rw [h, bootScanOver, readSlot_ok ((answerAt_scanned ..).trans (hok 31 (by omega))), scanned_params, scanned_med,
    entryAt_eq (by omega), hp, hsaw]
  rfl

/-- BOOTSCAN whose read of slot `k` fails (R108). -/
theorem bootScanOver_fail {s : State} {k : Nat} (hk : k < 32) (hvalid : ∀ i < k, (entryAt s.params s.med i).isSome = true)
    (h : ChannelThen s k .fail) :
    ∃ c image, bootScanOver slotOffsets s = (.raised .channelFailure (k * 64),
      s.scanned (k + 1) (slotOffset k) image c (readTxns k ++ [.read (slotOffset k) 64 .fail])) := by
  obtain ⟨hok, hfail⟩ := h
  obtain ⟨so, sb, ca, h⟩ := bootScanOver_leading hk hvalid hok
  refine ⟨ca, sb, ?_⟩
  rw [h, bootScanOver, readSlot_fail ((answerAt_scanned ..).trans hfail), slotOffset_toNat hk.le, ← scanned_failed]

end Sys2Proof.Machine

namespace Sys2Proof.Claims
open Sys2Proof Sys2Proof.Machine

/-- Settles O21: the scan passes the valid slots and stops at its read of the invalid one. -/
theorem bootscanStopsAtTheFirstInvalidSlot : Obligations.BootscanStopsAtTheFirstInvalidSlot := by
  intro s ps hlen hlead hinvalid hok
  obtain ⟨c, h⟩ := bootScanOver_room hlen (LeadingEntries.isSome hlead) hinvalid hok
  exact ⟨c, by rw [exec_bootscan_eq, h]; rfl⟩

/-- Settles O22: the scan passes slot 31 as well and runs out of slots. -/
theorem bootscanReportsAFullLog : Obligations.BootscanReportsAFullLog := by
  intro s ps hlen hlead hok
  obtain ⟨c, h⟩ := bootScanOver_full (hlen ▸ LeadingEntries.isSome hlead) hok
  exact ⟨c, by rw [exec_bootscan_eq, h]; rfl⟩

/-- Settles O23: the scan passes the valid slots and ends at its failed read. -/
theorem bootscanReadFailureKeepsTheCursor : Obligations.BootscanReadFailureKeepsTheCursor := by
  intro s ps hlen hlead hfail
  obtain ⟨c, image, h⟩ := bootScanOver_fail hlen (LeadingEntries.isSome hlead) hfail
  exact ⟨c, image, by rw [exec_bootscan_eq, h, List.append_assoc]; rfl⟩

end Sys2Proof.Claims
end

