-- ==== Sys2Proof/Proofs/ReadBack.lean ====
section
/-! PROOFS. READALL behind valid slots, and a reset at a read of either scan (42_log_engine.md section 5;
70_reset_and_hazards.md section 1). -/

namespace Sys2Proof.Machine

/-- The state once these entries are delivered: they stand in `yielded`, and the `Read` state reports them. -/
def State.delivered (es : List Entry) (s : State) : State :=
  { s with yielded := es, out := s.out ++ if s.fsm = .read then es.map Entry.report else [] }

@[simp] theorem delivered_params (es : List Entry) (s : State) : (s.delivered es).params = s.params := rfl
@[simp] theorem delivered_med (es : List Entry) (s : State) : (s.delivered es).med = s.med := rfl
theorem sawSlot_delivered (off : Offset) (es : List Entry) (s : State) :
    (s.delivered es).sawSlot off = (s.sawSlot off).delivered es := rfl

/-- One more entry is delivered. -/
theorem deliver_delivered (p : List Byte) (off : Offset) (es : List Entry) (s : State) :
    deliver p off (s.delivered es) = s.delivered (es ++ [⟨p, off⟩]) := by
  by_cases h : s.fsm = .read <;> simp [deliver, State.delivered, h, Entry.report]

/-- The last entry stands at the offset behind the others. -/
theorem entriesOf_concat (ps : List (List Byte)) (p : List Byte) :
    entriesOf (ps ++ [p]) = entriesOf ps ++ [⟨p, slotOffset ps.length⟩] := by
  simp [entriesOf]

/-- Leading entries and one behind them. -/
theorem LeadingEntries.of_concat {pr : Config.Params} {m : Memory} {ps : List (List Byte)} {p : List Byte}
    (h : LeadingEntries pr m (ps ++ [p])) : LeadingEntries pr m ps ∧ entryAt pr m ps.length = some p := by
  refine ⟨fun i hi => ?_, ?_⟩
  · rw [h i (by simp; omega), List.getElem_append_left hi]
  · rw [h ps.length (by simp), List.getElem_concat_length rfl]

@[simp] theorem answerAt_scanned_delivered (n : Nat) (so : Offset) (sb : List Byte) (ca : Half) (l : List Txn)
    (es : List Entry) (s : State) (j : Nat) :
    answerAt ((s.scanned n so sb ca l).delivered es) j = answerAt s (n + j) := answerAt_scanned n so sb ca l s j

/-- The payloads beside their slots' offsets, as the scan meets them. -/
def atSlots (ps : List (List Byte)) : List (Offset × List Byte) := ps.mapIdx fun i p => (slotOffset i, p)

@[simp] theorem length_atSlots (ps : List (List Byte)) : (atSlots ps).length = ps.length := List.length_mapIdx

theorem atSlots_offsets (ps : List (List Byte)) :
    (atSlots ps).map (·.1) = (List.range ps.length).map slotOffset :=
  List.ext_getElem (by simp) (by simp [atSlots])

theorem atSlots_reads (ps : List (List Byte)) :
    (atSlots ps).map (fun x => Txn.read x.1 Config.slotSize .ok) = readTxns ps.length :=
  List.ext_getElem (by simp [readTxns]) (by simp [atSlots, readTxns])

theorem atSlots_entries (ps : List (List Byte)) : ((atSlots ps).map fun x => (⟨x.2, x.1⟩ : Entry)) = entriesOf ps :=
  List.ext_getElem (by simp [entriesOf]) (by simp [atSlots, entriesOf])

theorem atSlots_reports (ps : List (List Byte)) :
    ((atSlots ps).map fun x => Report.entryMsg x.2 x.1) = (entriesOf ps).map Entry.report := by
  rw [← atSlots_entries, List.map_map]
  rfl

/-- READALL delivers the first `ps.length` entries, one read each. -/
theorem readOver_leading {s : State} {ps : List (List Byte)} (hlen : ps.length < 32)
    (hlead : LeadingEntries s.params s.med ps) (hok : ChannelOk s ps.length) :
    ∃ so sb ca, readOver slotOffsets { s with yielded := [] } =
      readOver (slotOffset ps.length :: slotOffsets.drop (ps.length + 1))
        ((s.scanned ps.length so sb ca (readTxns ps.length)).delivered (entriesOf ps)) := by
  have hentries : ∀ x ∈ atSlots ps,
      slotPayload s.params.limit (Memory.bytes s.med x.1.toNat Config.slotSize) = some x.2 := fun x hx => by
    obtain ⟨i, hi, rfl⟩ := List.mem_mapIdx.mp hx
    rw [entryAt_eq (show i ≤ 32 by omega)]
    exact hlead i hi
  obtain ⟨so, sb, ca, h⟩ := readOver_valid (slotOffset ps.length :: slotOffsets.drop (ps.length + 1)) (atSlots ps)
    { s with yielded := [] } (fun j hj => hok j (by simpa using hj)) hentries
  rw [atSlots_offsets, ← slotOffsets_split hlen, atSlots_reads, atSlots_reports, atSlots_entries, length_atSlots] at h
  exact ⟨so, sb, ca, h⟩

/-- READALL at the first invalid slot (R114). -/
theorem readOver_room {s : State} {ps : List (List Byte)} (hlen : ps.length < 32)
    (hlead : LeadingEntries s.params s.med ps) (hinvalid : entryAt s.params s.med ps.length = none)
    (hok : ChannelOk s (ps.length + 1)) :
    ∃ c, readOver slotOffsets { s with yielded := [] } = (.done true,
      (s.scanned (ps.length + 1) (slotOffset ps.length) (slotImage s.med ps.length) c
        (readTxns (ps.length + 1))).delivered (entriesOf ps)) := by
  obtain ⟨so, sb, ca, h⟩ := readOver_leading hlen hlead (hok.mono (by omega))
  obtain ⟨c, hsaw⟩ := sawSlot_scanned hlen so sb ca s
  refine ⟨c, ?_⟩
  rw [h, readOver, readSlot_ok ((answerAt_scanned_delivered ..).trans (hok ps.length (by omega))), delivered_params, delivered_med,
    scanned_params, scanned_med, entryAt_eq hlen.le, hinvalid, sawSlot_delivered, hsaw]

/-- READALL on a full log (R114). -/
theorem readOver_full {s : State} {ps : List (List Byte)} (hlen : ps.length = 32)
    (hlead : LeadingEntries s.params s.med ps) (hok : ChannelOk s 32) :
    ∃ c, readOver slotOffsets { s with yielded := [] } = (.done false,
      (s.scanned 32 (slotOffset 31) (slotImage s.med 31) c (readTxns 32)).delivered (entriesOf ps)) := by
  obtain ⟨qs, p, rfl⟩ := (List.eq_nil_or_concat' ps).resolve_left (by rintro rfl; simp at hlen)
  have hqs : qs.length = 31 := by simpa using hlen
  obtain ⟨hleadq, hp⟩ := hlead.of_concat
  obtain ⟨so, sb, ca, h⟩ := readOver_leading (by omega) hleadq (hok.mono (by omega))
  rw [hqs] at h hp
  obtain ⟨c, hsaw⟩ := sawSlot_scanned (k := 31) (by omega) so sb ca s
  refine ⟨c, ?_⟩
  rw [h, readOver, readSlot_ok ((answerAt_scanned_delivered ..).trans (hok 31 (by omega))), delivered_params, delivered_med,
    scanned_params, scanned_med, entryAt_eq (by omega), hp, sawSlot_delivered, hsaw, entriesOf_concat, hqs,
    ← deliver_delivered]
  rfl

/-- READALL whose read of slot `ps.length` fails (R115). -/
theorem readOver_fail {s : State} {ps : List (List Byte)} (hlen : ps.length < 32)
    (hlead : LeadingEntries s.params s.med ps) (h : ChannelThen s ps.length .fail) :
    ∃ c image, readOver slotOffsets { s with yielded := [] } = (.raised .channelFailure (ps.length * 64),
      (s.scanned (ps.length + 1) (slotOffset ps.length) image c
        (readTxns ps.length ++ [.read (slotOffset ps.length) 64 .fail])).delivered (entriesOf ps)) := by
  obtain ⟨hok, hfail⟩ := h
  obtain ⟨so, sb, ca, h⟩ := readOver_leading hlen hlead hok
  refine ⟨ca, sb, ?_⟩
  rw [h, readOver, readSlot_fail ((answerAt_scanned_delivered ..).trans hfail), slotOffset_toNat hlen.le, ← scanned_failed]
  rfl

/-! ### A reset at a read -/

/-- The transaction a reset leaves in the trace: none when it strikes before the read is issued. -/
def struckRead (off : Offset) (a : Answer) : List Txn := if a = .resetDuring then [.read off 64 .resetDuring] else []

/-- A slot read that a reset strikes. -/
theorem readSlot_struck {off : Offset} {s : State} {a : Answer} (h : answerAt s 0 = a)
    (ha : a = .resetBefore ∨ a = .resetDuring) :
    readSlot off s = (.reset, { s.asked with scanOff := off, trace := s.trace ++ struckRead off a }) := by
  have h' : answerAt { s with scanOff := off } 0 = a := h
  rcases ha with rfl | rfl <;> simp [readSlot, memRead, h', struckRead, State.asked, State.record]

theorem scanned_struck (k : Nat) (off so : Offset) (sb : List Byte) (ca : Half) (l : List Txn) (a : Answer) (s : State) :
    ({ (s.scanned k so sb ca l).asked with
        scanOff := off, trace := (s.scanned k so sb ca l).trace ++ struckRead off a } : State) =
      s.scanned (k + 1) off sb ca (l ++ struckRead off a) := by
  simp [State.scanned, State.spent, State.asked, Nat.add_assoc]

/-- The first `k` slots are passed, then a reset strikes. -/
theorem bootScanOver_struck {s : State} {k : Nat} {a : Answer} (hk : k < 32)
    (hvalid : ∀ i < k, (entryAt s.params s.med i).isSome = true) (h : ChannelThen s k a)
    (ha : a = .resetBefore ∨ a = .resetDuring) :
    ∃ c image, bootScanOver slotOffsets s =
      (.reset, s.scanned (k + 1) (slotOffset k) image c (readTxns k ++ struckRead (slotOffset k) a)) := by
  obtain ⟨hok, hstruck⟩ := h
  obtain ⟨so, sb, ca, h⟩ := bootScanOver_leading hk hvalid hok
  refine ⟨ca, sb, ?_⟩
  rw [h, bootScanOver, readSlot_struck ((answerAt_scanned ..).trans hstruck) ha, ← scanned_struck]

/-- The first entries are delivered, then a reset strikes. -/
theorem readOver_struck {s : State} {ps : List (List Byte)} {a : Answer} (hlen : ps.length < 32)
    (hlead : LeadingEntries s.params s.med ps) (h : ChannelThen s ps.length a)
    (ha : a = .resetBefore ∨ a = .resetDuring) :
    ∃ c image, readOver slotOffsets { s with yielded := [] } =
      (.reset, (s.scanned (ps.length + 1) (slotOffset ps.length) image c
        (readTxns ps.length ++ struckRead (slotOffset ps.length) a)).delivered (entriesOf ps)) := by
  obtain ⟨hok, hstruck⟩ := h
  obtain ⟨so, sb, ca, h⟩ := readOver_leading hlen hlead hok
  refine ⟨ca, sb, ?_⟩
  rw [h, readOver, readSlot_struck ((answerAt_scanned_delivered ..).trans hstruck) ha, ← scanned_struck]
  rfl

/-- RESET after slot reads, with its values for the working storage open; delivered entries and reports are gone. -/
theorem resetBlock_scanned (n : Nat) (so : Offset) (sb : List Byte) (ca : Half) (l : List Txn) (es : List Entry)
    (s : State) :
    ((s.scanned n so sb ca l).delivered es).resetBlock = (s.scanned n so sb ca l).resetBlock := rfl

end Sys2Proof.Machine

namespace Sys2Proof.Claims
open Sys2Proof Sys2Proof.Machine

/-- Settles O30: the leading part ends at the first invalid slot, or past the last one. -/
theorem readallYieldsTheLeadingEntries : Obligations.ReadallYieldsTheLeadingEntries := by
  intro s ps hmax hlead hinvalid hok
  rcases Nat.lt_or_eq_of_le hmax with hlen | hlen
  · rw [Nat.min_eq_left (by omega)] at hok
    obtain ⟨c, h⟩ := readOver_room hlen hlead (hinvalid hlen) hok
    refine ⟨c, ?_⟩
    rw [exec_readall_eq, h, Nat.min_eq_left (show ps.length + 1 ≤ 32 by omega),
      Nat.min_eq_left (show ps.length ≤ 31 by omega), decide_eq_true hlen]
    rfl
  · rw [hlen] at hok
    obtain ⟨c, h⟩ := readOver_full hlen hlead hok
    refine ⟨c, ?_⟩
    rw [exec_readall_eq, h, hlen]
    rfl

/-- Settles O31: the failed read stops the scan behind the delivered entries. -/
theorem readallFailureKeepsDeliveredEntries : Obligations.ReadallFailureKeepsDeliveredEntries := by
  intro s ps hlen hlead hfail
  obtain ⟨c, image, h⟩ := readOver_fail hlen hlead hfail
  exact ⟨c, image, by rw [exec_readall_eq, h, List.append_assoc s.trace]; rfl⟩

/-- Settles O37: either scan ends at the struck read, and RESET's values for the working storage are some values. -/
theorem resetDuringAScanKeepsTheMedium : Obligations.ResetDuringAScanKeepsTheMedium := by
  intro i s ps a hi hlen hlead hthen ha
  have hexec : ∃ c image, exec i s = .next (s.scanned (ps.length + 1) (slotOffset ps.length) image c
      (readTxns ps.length ++ struckRead (slotOffset ps.length) a)).resetBlock := by
    rcases hi with rfl | rfl
    · obtain ⟨c, image, h⟩ := bootScanOver_struck hlen (LeadingEntries.isSome hlead) hthen ha
      exact ⟨c, image, by rw [exec_bootscan_eq, h]; rfl⟩
    · obtain ⟨c, image, h⟩ := readOver_struck hlen hlead hthen ha
      exact ⟨c, image, by rw [exec_readall_eq, h, complete, resetBlock_scanned]⟩
  obtain ⟨c, image, hexec⟩ := hexec
  obtain ⟨pending, crcAcc, slotbuf, scanOff, hbuf, hreset⟩ := resetClearsTheBlockAndKeepsTheMedium
    (s.scanned (ps.length + 1) (slotOffset ps.length) image c (readTxns ps.length ++ struckRead (slotOffset ps.length) a))
  refine ⟨pending, crcAcc, slotbuf, scanOff, hbuf, hexec.trans (hreset.trans ?_)⟩
  rw [List.append_assoc]
  rfl

end Sys2Proof.Claims
end

