-- ==== Sys2Proof/Proofs/Append.lean ====
section
/-! PROOFS. APPEND: its refusals, its one write at the cursor, and what a failed or struck write leaves
(42_log_engine.md section 3; 70_reset_and_hazards.md section 1). -/

namespace Sys2Proof.Machine

theorem asked_eq_spent (s : State) : s.asked = s.spent 1 := by
  simp [State.asked, State.spent]

/-- The state with a payload's frame built in `SLOTBUF` (R94). -/
def State.encoded (p : List Byte) (s : State) : State :=
  { s with
    slotbuf := frameOf p ++ s.slotbuf.drop (p.length + 3)
    crcAcc := crc16 (p ++ [Config.terminator]) }

/-- APPEND on a full log (R110). -/
theorem appendEntry_full {s : State} (hfull : 1984 < s.cursor.toNat) (p : List Byte) :
    appendEntry p s = (.raised .protocolViolation s.cursor.toNat, s) := by
  rw [appendEntry, if_pos (logFull_eq_true.mpr hfull)]

/-- APPEND of an illegal payload with room (R95). -/
theorem appendEntry_illegal {p : List Byte} {s : State} (hroom : s.cursor.toNat ≤ 1984) (h : legalPayload p = false) :
    appendEntry p s = (.raised .payloadInvalid p.length, s) := by
  rw [appendEntry, logFull_eq_false.mpr hroom, encodeSlot_illegal h]
  rfl

/-- APPEND of a legal payload with room is one write of the frame at the cursor, and its end is the write's (R109). -/
theorem appendEntry_of_memWrite {p : List Byte} {s u : State} {e : Ended Unit} (hroom : s.cursor.toNat ≤ 1984)
    (h : legalPayload p = true) (hwrite : memWrite s.cursor (frameOf p) (s.encoded p) = (e, u)) :
    appendEntry p s = (e, if e = .done () then { u with cursor := u.cursor + 64 } else u) := by
  unfold State.encoded at hwrite
  simp only [appendEntry, logFull_eq_false.mpr hroom, encodeSlot_legal h, hwrite]
  rcases e with ⟨⟩ | _ | _ <;> rfl

/-- The meaning of an APPEND whose write succeeds (R109). -/
theorem exec_append_ok {p : List Byte} {s : State} (hroom : s.cursor.toNat ≤ 1984) (h : legalPayload p = true)
    (hok : answerAt s 0 = .ok) :
    exec (.append p) s = .next { (s.encoded p).spent 1 with
      cursor := s.cursor + 64
      med := Memory.writeBytes s.med s.cursor.toNat (frameOf p)
      trace := s.trace ++ [.write s.cursor (frameOf p) .ok]
      result := .ok } := by
  have hok' : answerAt (s.encoded p) 0 = .ok := hok
  rw [exec_append_eq, appendEntry_of_memWrite hroom h (memWrite_ok hok'), asked_eq_spent]
  rfl

/-- The meaning of an APPEND whose write fails (R111). -/
theorem exec_append_fail {p : List Byte} {s : State} (hroom : s.cursor.toNat ≤ 1984) (h : legalPayload p = true)
    (hfail : answerAt s 0 = .fail) :
    exec (.append p) s = .next { (s.encoded p).spent 1 with
      med := Memory.writeBytes s.med s.cursor.toNat (tornBytes s.tick s.cursor.toNat (p.length + 3))
      out := s.out ++ [.errorMsg .channelFailure .append s.cursor.toNat]
      fsm := .userInput
      trace := s.trace ++ [.write s.cursor (frameOf p) .fail]
      result := .raised .channelFailure s.cursor.toNat } := by
  have hfail' : answerAt (s.encoded p) 0 = .fail := hfail
  rw [exec_append_eq, appendEntry_of_memWrite hroom h (memWrite_fail hfail'), asked_eq_spent, length_frameOf]
  rfl

/-- The meaning of an APPEND before whose write a reset strikes (R171). -/
theorem exec_append_resetBefore {p : List Byte} {s : State} (hroom : s.cursor.toNat ≤ 1984) (h : legalPayload p = true)
    (hreset : answerAt s 0 = .resetBefore) : exec (.append p) s = .next (s.encoded p).asked.resetBlock := by
  have hreset' : answerAt (s.encoded p) 0 = .resetBefore := hreset
  have hwrite : memWrite s.cursor (frameOf p) (s.encoded p) = (.reset, (s.encoded p).asked) := by
    rw [memWrite, hreset']
  rw [exec_append_eq, appendEntry_of_memWrite hroom h hwrite]
  rfl

/-- The meaning of an APPEND during whose write a reset strikes (R171). -/
theorem exec_append_resetDuring {p : List Byte} {s : State} (hroom : s.cursor.toNat ≤ 1984) (h : legalPayload p = true)
    (hreset : answerAt s 0 = .resetDuring) :
    exec (.append p) s = .next (((s.encoded p).torn s.cursor (p.length + 3)).asked.record
      (.write s.cursor (frameOf p) .resetDuring)).resetBlock := by
  have hreset' : answerAt (s.encoded p) 0 = .resetDuring := hreset
  have hwrite : memWrite s.cursor (frameOf p) (s.encoded p) = (.reset,
      ((s.encoded p).torn s.cursor (frameOf p).length).asked.record (.write s.cursor (frameOf p) .resetDuring)) := by
    rw [memWrite, hreset']
  rw [exec_append_eq, appendEntry_of_memWrite hroom h hwrite, length_frameOf]
  rfl

/-- The span of a legal payload's frame lies in the Medium, so bytes of its length keep the canonical form and every byte
outside it. -/
theorem write_frame_span {m : Memory} {c : Nat} {p w : List Byte} (hwf : Memory.wf m = true) (hroom : c ≤ 1984)
    (hlegal : legalPayload p = true) (hlen : w.length = p.length + 3) :
    Memory.wf (Memory.writeBytes m c w) = true ∧
      ∀ a, (a < c ∨ c + (p.length + 3) ≤ a) → Memory.read (Memory.writeBytes m c w) a = Memory.read m a := by
  obtain ⟨-, hmax, -⟩ := legalPayload_iff.mp hlegal
  have hfits : c + w.length ≤ Config.capacity := by
    simp only [Config.payloadMax, Config.capacity] at hmax ⊢
    omega
  exact ⟨Memory.wf_writeBytes hwf hfits, fun a ha => Memory.read_writeBytes_outside hwf hfits (hlen ▸ ha)⟩

/-- The frame written is read back. -/
theorem bytes_written_frame {m : Memory} {c : Nat} {p : List Byte} (hwf : Memory.wf m = true) (hroom : c ≤ 1984)
    (hlegal : legalPayload p = true) :
    Memory.bytes (Memory.writeBytes m c (frameOf p)) c (p.length + 3) = frameOf p := by
  obtain ⟨-, hmax, -⟩ := legalPayload_iff.mp hlegal
  have hfits : c + (frameOf p).length ≤ Config.capacity := by
    simp only [Config.payloadMax, Config.capacity, length_frameOf] at hmax ⊢
    omega
  rw [Memory.bytes_writeBytes_self hwf hfits (length_frameOf p).le,
    List.drop_eq_nil_of_le (by rw [Memory.length_bytes, length_frameOf]), List.append_nil]

end Sys2Proof.Machine

namespace Sys2Proof.Claims
open Sys2Proof Sys2Proof.Machine

/-- Settles O24: the frame fits behind the cursor, so its bytes are read back and no other byte changes. -/
theorem appendStoresTheFrameAtTheCursor : Obligations.AppendStoresTheFrameAtTheCursor := by
  intro s p hwf hroom hpos hmax hzero hok
  have hlegal : legalPayload p = true := legalPayload_iff.mpr ⟨hpos, hmax, hzero⟩
  obtain ⟨hwf', hframe⟩ := write_frame_span hwf hroom hlegal (length_frameOf p)
  exact ⟨_, exec_append_ok hroom hlegal (hok 0 (by omega)), rfl, cursor_advance_toNat hroom, hwf',
    bytes_written_frame hwf hroom hlegal, hframe⟩

/-- Settles O25: the capacity test comes first. -/
theorem appendOnAFullLogIsRefused : Obligations.AppendOnAFullLogIsRefused := by
  intro s p hfull
  rw [exec_append_eq, appendEntry_full hfull]
  rfl

/-- Settles O26: ENCODE refuses the payload before anything is written. -/
theorem appendOfAnIllegalPayloadIsRefused : Obligations.AppendOfAnIllegalPayloadIsRefused := by
  intro s p hroom hillegal
  rw [exec_append_eq, appendEntry_illegal hroom (legalPayload_eq_false.mpr hillegal)]
  rfl

/-- Settles O27: the torn bytes have the frame's length. -/
theorem appendFailedWriteSpoilsOnlyItsSpan : Obligations.AppendFailedWriteSpoilsOnlyItsSpan := by
  intro s p hwf hroom hpos hmax hzero ⟨_, hfail⟩
  have hlegal : legalPayload p = true := legalPayload_iff.mpr ⟨hpos, hmax, hzero⟩
  obtain ⟨hwf', hframe⟩ := write_frame_span hwf hroom hlegal (length_tornBytes s.tick s.cursor.toNat (p.length + 3))
  exact ⟨_, exec_append_fail hroom hlegal hfail, rfl, hwf', hframe⟩

/-- Settles O35: RESET keeps the Medium, which the struck write has left as it was or torn in its span. -/
theorem resetDuringAppendSpoilsOnlyItsSpan : Obligations.ResetDuringAppendSpoilsOnlyItsSpan := by
  intro s p answer hwf hroom hpos hmax hzero ⟨_, hanswer⟩ hreset
  have hlegal : legalPayload p = true := legalPayload_iff.mpr ⟨hpos, hmax, hzero⟩
  rcases hreset with rfl | rfl
  · exact ⟨_, exec_append_resetBefore hroom hlegal hanswer, rfl, rfl, rfl, rfl, rfl, rfl, hwf, fun _ => ⟨rfl, rfl⟩,
      fun _ _ => rfl⟩
  · obtain ⟨hwf', hframe⟩ := write_frame_span hwf hroom hlegal (length_tornBytes s.tick s.cursor.toNat (p.length + 3))
    exact ⟨_, exec_append_resetDuring hroom hlegal hanswer, rfl, rfl, rfl, rfl, rfl, rfl, hwf', nofun, hframe⟩

end Sys2Proof.Claims
end

