-- ==== Sys2Proof/Proofs/Erase.lean ====
section
/-! PROOFS. ERASEALL: the Medium behind its completed writes, and its three ends (42_log_engine.md section 4;
70_reset_and_hazards.md section 1). -/

namespace Sys2Proof.Machine

/-! ### The Medium behind the completed writes -/

/-- The Medium with the first byte of each of the first `k` slots zeroed. Irreducible, so that no unification unrolls the
slots; `erasedTo_succ` and `read_erasedTo` say what it is. -/
@[irreducible] def Memory.erasedTo (m : Memory) (k : Nat) : Memory := Memory.erased m ((List.range k).map slotOffset)

theorem Memory.erased_append (as bs : List Offset) : ∀ m : Memory,
    Memory.erased m (as ++ bs) = Memory.erased (Memory.erased m as) bs := by
  induction as with
  | nil => exact fun _ => rfl
  | cons off as ih => exact fun m => ih _

/-- One more slot is erased. -/
theorem Memory.erasedTo_succ (m : Memory) (k : Nat) : Memory.erasedTo m (k + 1) =
    Memory.writeBytes (Memory.erasedTo m k) (slotOffset k).toNat [Config.eraseByte] := by
  rw [Memory.erasedTo, Memory.erasedTo, List.range_succ, List.map_append, Memory.erased_append]
  rfl

theorem Memory.wf_erasedTo {m : Memory} {k : Nat} (h : Memory.wf m = true) (hk : k ≤ 32) :
    Memory.wf (Memory.erasedTo m k) = true := by
  rw [Memory.erasedTo]
  refine (Memory.read_erased h fun off hoff => ?_).1
  obtain ⟨i, hi, rfl⟩ := List.mem_map.mp hoff
  exact slotOffset_mem (by rw [List.mem_range] at hi; omega)

/-- The first bytes of the first `k` slots are the aligned addresses below slot `k`. -/
theorem mem_slot_addresses {k a : Nat} (hk : k ≤ 32) :
    a ∈ ((List.range k).map slotOffset).map (·.toNat) ↔ a < k * 64 ∧ a % 64 = 0 := by
  simp only [List.mem_map, List.mem_range, exists_exists_and_eq_and]
  constructor
  · rintro ⟨i, hi, rfl⟩
    rw [slotOffset_toNat (by omega)]
    omega
  · rintro ⟨hlt, hmod⟩
    exact ⟨a / 64, by omega, by rw [slotOffset_toNat (by omega)]; omega⟩

/-- The first bytes of the erased slots read zero, every other byte as before. -/
theorem Memory.read_erasedTo {m : Memory} {k : Nat} (h : Memory.wf m = true) (hk : k ≤ 32) (a : Nat) :
    Memory.read (Memory.erasedTo m k) a = if a < k * 64 ∧ a % 64 = 0 then 0x00 else Memory.read m a := by
  have hslots : (List.range k).map slotOffset ⊆ slotOffsets := fun off hoff => by
    obtain ⟨i, hi, rfl⟩ := List.mem_map.mp hoff
    exact slotOffset_mem (by rw [List.mem_range] at hi; omega)
  simp only [Memory.erasedTo, (Memory.read_erased h hslots).2, mem_slot_addresses hk]

/-- All slots are erased. -/
theorem Memory.read_erasedTo_last {m : Memory} (h : Memory.wf m = true) (a : Nat) :
    Memory.read (Memory.erasedTo m 32) a = if a < 2048 ∧ a % 64 = 0 then 0x00 else Memory.read m a :=
  Memory.read_erasedTo h le_rfl a

/-- A slot whose first byte is zero holds no entry (R96 a). -/
theorem entryAt_eq_none {p : Config.Params} {m : Memory} {i : Nat} (h : Memory.read m (i * 64) = 0x00) :
    entryAt p m i = none := by
  have hhead : (slotImage m i).headD Config.terminator = Config.terminator := by
    rw [List.headD_eq_head?_getD, List.head?_eq_getElem?, slotImage,
      List.getElem?_eq_getElem (by rw [Memory.length_bytes]; decide), Memory.getElem_bytes]
    exact h
  rw [entryAt, slotPayload, frameSpan, if_pos hhead]

/-- What a write of one byte at slot `k` leaves: the other bytes of the Medium behind the completed writes. -/
theorem read_torn_erase {m : Memory} {k : Nat} {w : List Byte} (h : Memory.wf m = true) (hk : k < 32)
    (hlen : w.length = 1) :
    Memory.wf (Memory.writeBytes (Memory.erasedTo m k) (k * 64) w) = true ∧
      ∀ a, a ≠ k * 64 → Memory.read (Memory.writeBytes (Memory.erasedTo m k) (k * 64) w) a =
        if a < k * 64 ∧ a % 64 = 0 then 0x00 else Memory.read m a := by
  have hwf := Memory.wf_erasedTo h hk.le
  have hfits : k * 64 + w.length ≤ Config.capacity := by
    rw [hlen]
    simp only [Config.capacity]
    omega
  refine ⟨Memory.wf_writeBytes hwf hfits, fun a ha => ?_⟩
  rw [Memory.read_writeBytes_outside hwf hfits (by omega), Memory.read_erasedTo h hk.le]

/-! ### The scan -/

/-- The state behind `k` completed writes of an erase, the last one at `so`. -/
def State.erasing (k : Nat) (so : Offset) (s : State) : State :=
  { s.spent k with scanOff := so, med := Memory.erasedTo s.med k, trace := s.trace ++ eraseTxns k }

theorem answerAt_erasing (k : Nat) (so : Offset) (s : State) (j : Nat) :
    answerAt (s.erasing k so) j = answerAt s (k + j) := answerAt_spent s k j

theorem eraseTxns_succ (k : Nat) : eraseTxns (k + 1) = eraseTxns k ++ [.write (slotOffset k) [Config.eraseByte] .ok] := by
  simp [eraseTxns, List.range_succ]

/-- ERASEALL behind its first `k` writes, all successful. -/
theorem eraseOver_leading {s : State} {k : Nat} (hk : k < 32) (hok : ChannelOk s k) :
    ∃ so, eraseOver slotOffsets s = eraseOver (slotOffset k :: slotOffsets.drop (k + 1)) (s.erasing k so) := by
  have hlen : ((List.range k).map slotOffset).length = k := by simp
  obtain ⟨so, h⟩ := eraseOver_ok (slotOffset k :: slotOffsets.drop (k + 1)) _ s (hlen.symm ▸ hok)
  rw [← slotOffsets_split hk, hlen, List.map_map, ← Memory.erasedTo] at h
  exact ⟨so, h⟩

/-- The scan stands at slot `k`. -/
theorem erasing_scanOff (k : Nat) (so off : Offset) (s : State) :
    ({ s.erasing k so with scanOff := off } : State) = s.erasing k off := rfl

/-- Slot 31 is the last one the scan visits. -/
theorem slotOffsets_drop_last : slotOffsets.drop (31 + 1) = [] := List.drop_eq_nil_of_le length_slotOffsets.le

theorem slotOffset_last : slotOffset 31 = 1984 := rfl

/-- A write of the erase at slot `k` that succeeds. -/
theorem erasing_succ (k : Nat) (s : State) :
    ((s.erasing k (slotOffset k)).stored (slotOffset k) [Config.eraseByte]).asked.record
      (.write (slotOffset k) [Config.eraseByte] .ok) = s.erasing (k + 1) (slotOffset k) := by
  simp [State.erasing, State.spent, State.stored, State.asked, State.record, Memory.erasedTo_succ _ k, eraseTxns_succ k,
    Nat.add_assoc]

/-- The meaning of an ERASEALL whose writes all succeed (R112). -/
theorem exec_eraseall_ok {s : State} (hok : ChannelOk s 32) :
    exec .eraseall s = .next { s.spent 32 with
      cursor := 0
      med := Memory.erasedTo s.med 32
      scanOff := 1984
      trace := s.trace ++ eraseTxns 32
      result := .ok } := by
  obtain ⟨so, h⟩ := eraseOver_leading (k := 31) (by omega) (hok.mono (by omega))
  have hok31 : answerAt (s.erasing 31 (slotOffset 31)) 0 = .ok := (answerAt_erasing ..).trans (hok 31 (by omega))
  rw [exec_eraseall_eq, h, eraseOver, erasing_scanOff, memWrite_ok hok31, erasing_succ, slotOffsets_drop_last]
  dsimp only
  rw [eraseOver, complete, State.erasing, slotOffset_last]

/-- The meaning of an ERASEALL whose write at slot `k` fails (R113). -/
theorem exec_eraseall_fail {s : State} {k : Nat} (hk : k < 32) (h : ChannelThen s k .fail) :
    exec .eraseall s = .next { s.spent (k + 1) with
      med := Memory.writeBytes (Memory.erasedTo s.med k) (k * 64) (tornBytes (s.tick + k) (k * 64) 1)
      out := s.out ++ [.errorMsg .channelFailure .eraseall (k * 64)]
      fsm := .userInput
      scanOff := slotOffset k
      trace := s.trace ++ eraseTxns k ++ [.write (slotOffset k) [0x00] .fail]
      result := .raised .channelFailure (k * 64) } := by
  obtain ⟨hok, hfail⟩ := h
  obtain ⟨so, h⟩ := eraseOver_leading hk hok
  have hfail' : answerAt (s.erasing k (slotOffset k)) 0 = .fail := (answerAt_erasing ..).trans hfail
  rw [exec_eraseall_eq, h, eraseOver, erasing_scanOff, memWrite_fail hfail']
  simp [complete, State.raise, State.erasing, State.spent, State.torn, State.asked, State.record, slotOffset_toNat hk.le,
    Nat.add_assoc]

/-- The meaning of an ERASEALL that a reset strikes before or during its write at slot `k` (R171). -/
theorem exec_eraseall_struck {s : State} {k : Nat} {a : Answer} (hk : k < 32) (h : ChannelThen s k a)
    (ha : a = .resetBefore ∨ a = .resetDuring) :
    ∃ t : State, exec .eraseall s = .next t.resetBlock ∧ t.med =
      if a = .resetBefore then Memory.erasedTo s.med k
      else Memory.writeBytes (Memory.erasedTo s.med k) (k * 64) (tornBytes (s.tick + k) (k * 64) 1) := by
  obtain ⟨hok, hanswer⟩ := h
  obtain ⟨so, h⟩ := eraseOver_leading hk hok
  have hanswer' : answerAt (s.erasing k (slotOffset k)) 0 = a := (answerAt_erasing ..).trans hanswer
  rw [exec_eraseall_eq, h, eraseOver, erasing_scanOff, memWrite, hanswer', ← slotOffset_toNat hk.le]
  rcases ha with rfl | rfl
  · exact ⟨_, rfl, rfl⟩
  · exact ⟨_, rfl, rfl⟩

end Sys2Proof.Machine

namespace Sys2Proof.Claims
open Sys2Proof Sys2Proof.Machine

/-- Settles O28: the first bytes of all 32 slots are the aligned addresses of the Medium. -/
theorem eraseallInvalidatesEverySlot : Obligations.EraseallInvalidatesEverySlot := fun _ hwf hok =>
  ⟨_, exec_eraseall_ok hok, rfl, Memory.wf_erasedTo hwf le_rfl, Memory.read_erasedTo_last hwf⟩

/-- Settles O29: the torn byte is the slot's own first one, and slot 0 is behind any earlier success. -/
theorem eraseallFailureKeepsTheCursor : Obligations.EraseallFailureKeepsTheCursor := by
  intro s k hwf hk hfail
  obtain ⟨hwf', hread⟩ := read_torn_erase hwf hk (length_tornBytes (s.tick + k) (k * 64) 1)
  refine ⟨_, exec_eraseall_fail hk hfail, rfl, hwf', hread, fun hpos => entryAt_eq_none ?_⟩
  rw [hread _ (by omega), if_pos (by omega)]

/-- Settles O36: RESET keeps the Medium behind the completed writes. -/
theorem resetDuringEraseKeepsCompletedWrites : Obligations.ResetDuringEraseKeepsCompletedWrites := by
  intro s k a hwf hk hthen ha
  obtain ⟨t, hexec, hmed⟩ := exec_eraseall_struck hk hthen ha
  obtain ⟨hwf', hread⟩ := read_torn_erase hwf hk (length_tornBytes (s.tick + k) (k * 64) 1)
  refine ⟨_, hexec, rfl, rfl, rfl, rfl, ?_⟩
  rw [resetBlock_med, hmed]
  rcases ha with rfl | rfl
  · exact ⟨Memory.wf_erasedTo hwf hk.le, fun a _ => Memory.read_erasedTo hwf hk.le a⟩
  · exact ⟨hwf', fun a ha => hread a (ha.resolve_right (by decide))⟩

/-- Settles O44: ERASEALL's own meaning, and a step to `UserInput`. -/
theorem eraseStepReturnsToUserInput : Obligations.EraseStepReturnsToUserInput := by
  intro s u hmoves hfsm hwf hok
  have hstep : step s = onNext afterOk (exec .eraseall u) := (actionStatesRunTheirOperation s u hmoves).2.1 hfsm
  rw [exec_eraseall_ok hok, onNext_next, afterOk_of_ok rfl] at hstep
  refine ⟨_, hstep, rfl, rfl, rfl, rfl, rfl, fun i hi => entryAt_eq_none ?_, Memory.read_erasedTo_last hwf⟩
  exact (Memory.read_erasedTo_last hwf _).trans (if_pos (by omega))

end Sys2Proof.Claims
end

