-- ==== Sys2Proof/Proofs/Histories.lean ====
section
/-! PROOFS. Several operations one after the other: an erased log is empty, and appended entries are read back
(42_log_engine.md section 6). -/

namespace Sys2Proof.Machine

/-! ### What one APPEND does to the slots -/

theorem slotOffset_succ (k : Nat) : slotOffset k + 64 = slotOffset (k + 1) := by
  rw [slotOffset, slotOffset, Nat.add_mul, BitVec.ofNat_add]
  rfl

/-- The slot a frame was written into holds its payload. -/
theorem entryAt_written_self {pr : Config.Params} {m : Memory} {k : Nat} {p : List Byte} (hwf : Memory.wf m = true)
    (hk : k < 32) (hlegal : legalPayload p = true) :
    entryAt pr (Memory.writeBytes m (k * 64) (frameOf p)) k = some p := by
  obtain ⟨-, hmax, -⟩ := legalPayload_iff.mp hlegal
  have hlen : (frameOf p).length ≤ Config.slotSize := by
    simp only [length_frameOf, Config.payloadMax, Config.slotSize] at hmax ⊢
    omega
  have hfits : k * Config.slotSize + (frameOf p).length ≤ Config.capacity := by
    simp only [Config.slotSize, Config.capacity] at hlen ⊢
    omega
  rw [entryAt, slotImage, Memory.bytes_writeBytes_self hwf hfits hlen]
  exact slotPayload_frameOf_append hlegal (Params.limit_bounds pr).1 _

/-- The verdict on every other slot stays. -/
theorem entryAt_written_other {pr : Config.Params} {m : Memory} {k i : Nat} {p : List Byte} (hwf : Memory.wf m = true)
    (hk : k < 32) (hlegal : legalPayload p = true) (hne : i ≠ k) :
    entryAt pr (Memory.writeBytes m (k * 64) (frameOf p)) i = entryAt pr m i := by
  obtain ⟨-, hmax, -⟩ := legalPayload_iff.mp hlegal
  obtain ⟨-, houtside⟩ := write_frame_span hwf (show k * 64 ≤ 1984 by omega) hlegal (length_frameOf p)
  have same_image : slotImage (Memory.writeBytes m (k * 64) (frameOf p)) i = slotImage m i :=
    Memory.bytes_congr fun b hlo hhi => houtside b (by
      simp only [Config.payloadMax, Config.slotSize] at hmax hlo hhi
      omega)
  rw [entryAt, entryAt, same_image]

/-- What an APPEND into slot `k` leaves of the log: the entry there, the cursor behind it, all other slots as before, and
one channel answer taken. -/
structure AppendedAt (k : Nat) (p : List Byte) (s t : State) : Prop where
  wf : Memory.wf t.med = true
  cursor : t.cursor = slotOffset (k + 1)
  params : t.params = s.params
  answers : ∀ j, answerAt t j = answerAt s (1 + j)
  entry : entryAt t.params t.med k = some p
  others : ∀ i, i ≠ k → entryAt t.params t.med i = entryAt s.params s.med i

theorem appendedAt_of_written {k : Nat} {p : List Byte} {s t : State} (hwf : Memory.wf s.med = true) (hk : k < 32)
    (hlegal : legalPayload p = true) (hcursor : t.cursor = slotOffset k + 64)
    (hmed : t.med = Memory.writeBytes s.med (slotOffset k).toNat (frameOf p)) (hparams : t.params = s.params)
    (hanswers : t.answers = (s.spent 1).answers) (htick : t.tick = (s.spent 1).tick) : AppendedAt k p s t := by
  rw [slotOffset_toNat hk.le] at hmed
  refine ⟨?_, hcursor.trans (slotOffset_succ k), hparams,
    fun j => (answerAt_congr hanswers htick j).trans (answerAt_spent s 1 j), ?_, fun i hne => ?_⟩
  · rw [hmed]
    exact (write_frame_span hwf (show k * 64 ≤ 1984 by omega) hlegal (length_frameOf p)).1
  · rw [hmed, entryAt_written_self hwf hk hlegal]
  · rw [hmed, hparams, entryAt_written_other hwf hk hlegal hne]

theorem exec_append_at_slot {k : Nat} {p : List Byte} {s : State} (hwf : Memory.wf s.med = true) (hk : k < 32)
    (hcursor : s.cursor = slotOffset k) (hlegal : legalPayload p = true) (hok : answerAt s 0 = .ok) :
    ∃ t, exec (.append p) s = .next t ∧ AppendedAt k p s t := by
  have hroom : s.cursor.toNat ≤ 1984 := by
    rw [hcursor, slotOffset_toNat hk.le]
    omega
  refine ⟨_, exec_append_ok hroom hlegal hok, appendedAt_of_written hwf hk hlegal ?_ ?_ rfl rfl rfl⟩
  · rw [hcursor]
  · rw [hcursor]

/-! ### Several APPENDs -/

theorem execAll_cons {i : Instr} {is : List Instr} {s t : State} (h : exec i s = .next t) :
    execAll (i :: is) s = execAll is t := by
  simp only [execAll, h]

/-- Instructions run one after the other, in two parts. -/
theorem execAll_append {is js : List Instr} : ∀ {s t : State}, execAll is s = .next t →
    execAll (is ++ js) s = execAll js t := by
  induction is with
  | nil =>
    intro s t h
    cases h
    rfl
  | cons i is ih =>
    intro s t h
    obtain ⟨u, hu⟩ := exec_next i s
    rw [execAll_cons hu] at h
    rw [List.cons_append, execAll_cons hu, ih h]

/-- Entries appended from slot `k` on stand in slots `k`, `k + 1`, ...; all other slots are as before. -/
theorem execAll_appends : ∀ {ps : List (List Byte)} {k : Nat} {s : State}, Memory.wf s.med = true →
    s.cursor = slotOffset k → k + ps.length ≤ 32 → (∀ p ∈ ps, legalPayload p = true) → ChannelOk s ps.length →
    ∃ t, execAll (ps.map .append) s = .next t ∧ t.cursor = slotOffset (k + ps.length) ∧ t.params = s.params ∧
      (∀ j, answerAt t j = answerAt s (ps.length + j)) ∧
      (∀ i (h : i < ps.length), entryAt t.params t.med (k + i) = some ps[i]) ∧
      ∀ i, (i < k ∨ k + ps.length ≤ i) → entryAt t.params t.med i = entryAt s.params s.med i
  | [], k, s, _, hcursor, _, _, _ =>
    ⟨s, rfl, hcursor, rfl, fun j => by simp, fun _ h => absurd h (Nat.not_lt_zero _), fun _ _ => rfl⟩
  | p :: ps, k, s, hwf, hcursor, hlen, hlegal, hok => by
    rw [List.length_cons] at hlen hok
    obtain ⟨u, hu, happend⟩ := exec_append_at_slot hwf (show k < 32 by omega) hcursor (hlegal p List.mem_cons_self)
      (hok 0 (by omega))
    obtain ⟨t, ht, hcur, hparams, hanswers, hentries, hothers⟩ := execAll_appends (ps := ps) happend.wf happend.cursor
      (by omega) (fun q hq => hlegal q (List.mem_cons_of_mem p hq))
      (fun j hj => (happend.answers j).trans (hok (1 + j) (by omega)))
    refine ⟨t, (execAll_cons hu).trans ht, ?_, hparams.trans happend.params, fun j => ?_, fun i hi => ?_, fun i hi => ?_⟩
    · rw [hcur, List.length_cons]
      congr 1
      omega
    · rw [hanswers, happend.answers, List.length_cons]
      congr 1
      omega
    · cases i with
      | zero => exact (hothers k (.inl (by omega))).trans happend.entry
      | succ i =>
        rw [show k + (i + 1) = k + 1 + i by omega]
        exact hentries i (by simpa using hi)
    · rw [List.length_cons] at hi
      rw [hothers i (by omega), happend.others i (by omega)]

end Sys2Proof.Machine

namespace Sys2Proof.Claims
open Sys2Proof Sys2Proof.Machine

/-- Settles O32: the erased slot 0 is invalid, so the scan stops at its first read. -/
theorem eraseThenBootscanFindsAnEmptyLog : Obligations.EraseThenBootscanFindsAnEmptyLog := by
  intro s hwf hok
  obtain ⟨t, herase, ht, -, hread⟩ := eraseallInvalidatesEverySlot s hwf (hok.mono (by omega))
  have hempty : entryAt t.params t.med 0 = none := entryAt_eq_none ((hread _).trans (if_pos (by omega)))
  have hanswers : ∀ j, answerAt t j = answerAt s (32 + j) := fun j => by
    rw [ht]
    exact answerAt_spent s 32 j
  obtain ⟨c, hscan⟩ := bootscanStopsAtTheFirstInvalidSlot t [] (by decide) (fun i hi => absurd hi (Nat.not_lt_zero i))
    hempty (fun j hj => (hanswers j).trans (hok (32 + j) (Nat.add_lt_add_left hj 32)))
  exact ⟨_, (execAll_cons herase).trans (execAll_cons hscan), rfl, rfl⟩

/-- Settles O33: the appended entries are the leading ones, and READALL yields those. -/
theorem appendedEntriesAreReadBack : Obligations.AppendedEntriesAreReadBack := by
  intro s ps hwf hcursor hlen hlegal hbehind hok
  obtain ⟨t, hall, hcur, hparams, hanswers, hentries, hothers⟩ := execAll_appends (k := 0) hwf hcursor (by omega)
    (fun p hp => legalPayload_iff.mpr (hlegal p hp)) (hok.mono (by omega))
  simp only [Nat.zero_add] at hcur hentries hothers
  obtain ⟨c, hread⟩ := readallYieldsTheLeadingEntries t ps hlen hentries
    (fun h => (hothers _ (.inr le_rfl)).trans (hbehind h))
    (fun j hj => (hanswers j).trans (hok (ps.length + j) (by omega)))
  exact ⟨_, (execAll_append hall).trans (execAll_cons hread), rfl, hcur⟩

end Sys2Proof.Claims
end

