-- ==== Sys2Proof/Proofs/ActionSteps.lean ====
section
/-! PROOFS. The steps of the action states, and the two paths of a boot (43_command_fsm.md section 3;
70_reset_and_hazards.md section 1). -/

namespace Sys2Proof.Machine

/-- The `BootScan` step on a log with room (R128). -/
theorem step_bootScan_room {s u : State} {ps : List (List Byte)} (hmoves : BlockMoves s u) (hfsm : u.fsm = .bootScan)
    (hlen : ps.length < 32) (hlead : LeadingEntries u.params u.med ps)
    (hinvalid : entryAt u.params u.med ps.length = none) (hok : ChannelOk u (ps.length + 1)) :
    ∃ c, step s = .next { u.spent (ps.length + 1) with
      cursor := slotOffset ps.length
      fsm := .write
      pending := .bootEntry
      out := u.out ++ [.bootMsg]
      scanOff := slotOffset ps.length
      slotbuf := slotImage u.med ps.length
      crcAcc := c
      trace := u.trace ++ readTxns (ps.length + 1)
      result := .recovery (.empty (slotOffset ps.length)) } := by
  obtain ⟨c, h⟩ := Claims.bootscanStopsAtTheFirstInvalidSlot u ps hlen hlead hinvalid hok
  exact ⟨c, by rw [step_of_bootScan hmoves hfsm, h, onNext_next, afterBootScan_of_empty rfl]; rfl⟩

/-- The `BootScan` step on a full log (R128). -/
theorem step_bootScan_full {s u : State} {ps : List (List Byte)} (hmoves : BlockMoves s u) (hfsm : u.fsm = .bootScan)
    (hlen : ps.length = 32) (hlead : LeadingEntries u.params u.med ps) (hok : ChannelOk u 32) :
    ∃ c, step s = .next { u.spent 32 with
      cursor := 2048
      fsm := .erase
      scanOff := 1984
      slotbuf := slotImage u.med 31
      crcAcc := c
      trace := u.trace ++ readTxns 32
      result := .recovery .full } := by
  obtain ⟨c, h⟩ := Claims.bootscanReportsAFullLog u ps hlen hlead hok
  exact ⟨c, by rw [step_of_bootScan hmoves hfsm, h, onNext_next, afterBootScan_of_full rfl]⟩

/-- The `Write` step with room and an answering channel (R132). -/
theorem step_write_ok {s u : State} (hmoves : BlockMoves s u) (hfsm : u.fsm = .write) (hroom : u.cursor.toNat ≤ 1984)
    (hok : answerAt u 0 = .ok) :
    step s = .next { (u.encoded (pendingPayload u)).spent 1 with
      cursor := u.cursor + 64
      fsm := .userInput
      med := Memory.writeBytes u.med u.cursor.toNat (frameOf (pendingPayload u))
      trace := u.trace ++ [.write u.cursor (frameOf (pendingPayload u)) .ok]
      result := .ok } := by
  rw [step_of_write hmoves hfsm, exec_append_ok hroom (legalPayload_pending u) hok, onNext_next, afterOk_of_ok rfl]

/-- The `Write` step into slot `k` (R132). -/
theorem step_write_at_slot {s u : State} {k : Nat} (hmoves : BlockMoves s u) (hfsm : u.fsm = .write)
    (hwf : Memory.wf u.med = true) (hk : k < 32) (hcursor : u.cursor = slotOffset k) (hok : answerAt u 0 = .ok) :
    ∃ t, step s = .next t ∧ t.fsm = .userInput ∧ t.out = u.out ∧ AppendedAt k (pendingPayload u) u t := by
  have hroom : u.cursor.toNat ≤ 1984 := by
    rw [hcursor, slotOffset_toNat hk.le]
    omega
  refine ⟨_, step_write_ok hmoves hfsm hroom hok, rfl, rfl,
    appendedAt_of_written hwf hk (legalPayload_pending u) ?_ ?_ rfl rfl rfl⟩
  · rw [hcursor]
  · rw [hcursor]

end Sys2Proof.Machine

namespace Sys2Proof.Claims
open Sys2Proof Sys2Proof.Machine

/-- The payload the claims name is the one the sequencer appends. -/
theorem tagged_eq_pendingPayload (u : State) : tagged u = pendingPayload u := by
  cases h : u.pending with
  | bootEntry => rw [tagged, if_pos h, pendingPayload_bootEntry h]
  | probeEntry => rw [tagged, if_neg (by rw [h]; decide), pendingPayload_probeEntry h]

/-- Settles O41: BOOTSCAN's three ends, and what the sequencer does with each. -/
theorem bootScanStepBranches : Obligations.BootScanStepBranches := by
  intro s u ps hmoves hfsm hlead
  refine ⟨fun hlen hinvalid hok => ?_, fun hlen hok => ?_, fun hlen hfail => ?_⟩
  · obtain ⟨c, h⟩ := step_bootScan_room hmoves hfsm hlen hlead hinvalid hok
    exact ⟨_, h, rfl, rfl, rfl, rfl, rfl, rfl, rfl⟩
  · obtain ⟨c, h⟩ := step_bootScan_full hmoves hfsm hlen hlead hok
    exact ⟨_, h, rfl, rfl, rfl, rfl, rfl, rfl, rfl⟩
  · obtain ⟨c, image, h⟩ := bootscanReadFailureKeepsTheCursor u ps hlen hlead hfail
    have hstep := step_of_bootScan hmoves hfsm
    rw [h, onNext_next] at hstep
    exact ⟨_, hstep, rfl, rfl, rfl, rfl, rfl, rfl, rfl⟩

/-- Settles O42: the tagged payload is legal, whatever the tag, so the append completes. -/
theorem writeStepAppendsTheTaggedPayload : Obligations.WriteStepAppendsTheTaggedPayload := by
  intro s u hmoves hfsm hwf hroom hok
  have hlegal := legalPayload_pending u
  rw [tagged_eq_pendingPayload, length_frameOf]
  exact ⟨_, step_write_ok hmoves hfsm hroom (hok 0 (by omega)), rfl, bytes_written_frame hwf hroom hlegal,
    (write_frame_span hwf hroom hlegal (length_frameOf _)).2⟩

/-- Settles O43: the tagged payload is legal, so a full log and the channel are the only errors. -/
theorem writeStepErrorsAreReported : Obligations.WriteStepErrorsAreReported := by
  intro s u hmoves hfsm
  have hlegal := legalPayload_pending u
  rw [tagged_eq_pendingPayload, length_frameOf]
  refine ⟨fun hfull => ?_, fun hroom ⟨_, hfail⟩ => ?_⟩
  · rw [step_of_write hmoves hfsm, appendOnAFullLogIsRefused u _ hfull]
    rfl
  · have hstep := step_of_write hmoves hfsm
    rw [exec_append_fail hroom hlegal hfail, onNext_next] at hstep
    exact ⟨_, hstep, rfl, rfl, rfl, rfl, rfl, fun hwf => write_frame_span hwf hroom hlegal (length_tornBytes ..)⟩

theorem length_entriesOf (ps : List (List Byte)) : (entriesOf ps).length = ps.length := List.length_mapIdx

/-- Settles O46: READALL reports the entries as it delivers them; the closing message depends on their number and on how
the scan ended. -/
theorem readStepReportsThenCloses : Obligations.ReadStepReportsThenCloses := by
  intro s u ps hmoves hfsm hlead
  have hstep := step_of_read hmoves hfsm
  constructor
  · intro hlen hinvalid hok
    obtain ⟨c, h⟩ := readallYieldsTheLeadingEntries u ps hlen hlead hinvalid hok
    rw [h, onNext_next, afterRead_of_exhausted rfl, if_pos hfsm] at hstep
    refine ⟨_, hstep, rfl, rfl, rfl, rfl, rfl, congrArg (_ ++ ·) ?_⟩
    change closing u.params.readEnd (entriesOf ps).length (decide (ps.length < 32)) = _
    rw [length_entriesOf]
    cases u.params.readEnd with
    | always => rfl
    | onInvalidSlot => simp [closing, closingReport]
    | onlyIfNone => simp [closing, closingReport]
  · intro hlen hfail
    obtain ⟨c, image, h⟩ := readallFailureKeepsDeliveredEntries u ps hlen hlead hfail
    rw [h, onNext_next, if_pos hfsm] at hstep
    exact ⟨_, hstep, rfl, rfl, rfl, rfl, rfl, rfl⟩

/-- Settles O47: the scan leaves the cursor at the first invalid slot, tagged for a boot entry, and the append writes
there. -/
theorem bootWritesABootEntry : Obligations.BootWritesABootEntry := by
  intro s ps hevents hfsm hwf hlen hlead hinvalid hok
  obtain ⟨c, hscan⟩ := step_bootScan_room (.inl ⟨hevents, rfl⟩) hfsm hlen hlead hinvalid (hok.mono (by omega))
  obtain ⟨v, hv, hvevents, hvfsm, htag, hcursor, hmed, hparams, hout, hanswers⟩ : ∃ v, step s = .next v ∧ v.events = [] ∧
      v.fsm = .write ∧ v.pending = .bootEntry ∧ v.cursor = slotOffset ps.length ∧ v.med = s.med ∧ v.params = s.params ∧
      v.out = s.out ++ [.bootMsg] ∧ ∀ j, answerAt v j = answerAt s (ps.length + 1 + j) :=
    ⟨_, hscan, hevents, rfl, rfl, rfl, rfl, rfl, rfl, answerAt_spent s (ps.length + 1)⟩
  obtain ⟨w, hw, hwfsm, hwout, happend⟩ := step_write_at_slot (.inl ⟨hvevents, rfl⟩) hvfsm (hmed ▸ hwf) hlen hcursor
    ((hanswers 0).trans (hok _ (by omega)))
  refine ⟨w, (run_succ hv).trans (run_succ hw), hwfsm, happend.cursor, hwout.trans hout, ?_, fun i _ hne => ?_⟩
  · exact happend.entry.trans (congrArg some (pendingPayload_bootEntry htag))
  · rw [← hparams, ← hmed]
    exact happend.others i hne

/-- Settles O48: the scan leads to `Erase`, whose step erases every slot. -/
theorem bootOnAFullLogErasesIt : Obligations.BootOnAFullLogErasesIt := by
  intro s ps hevents hfsm hwf hlen hlead hok
  obtain ⟨c, hscan⟩ := step_bootScan_full (.inl ⟨hevents, rfl⟩) hfsm hlen hlead (hok.mono (by omega))
  obtain ⟨v, hv, hvevents, hvfsm, hmed, hout, hanswers⟩ : ∃ v, step s = .next v ∧ v.events = [] ∧ v.fsm = .erase ∧
      v.med = s.med ∧ v.out = s.out ∧ ∀ j, answerAt v j = answerAt s (32 + j) :=
    ⟨_, hscan, hevents, rfl, rfl, rfl, answerAt_spent s 32⟩
  obtain ⟨t, herase, hfsm', hcursor, hout', -, -, hnone, -⟩ := eraseStepReturnsToUserInput v v (.inl ⟨hvevents, rfl⟩) hvfsm
    (hmed ▸ hwf) (fun j hj => (hanswers j).trans (hok (32 + j) (by omega)))
  exact ⟨t, (run_succ hv).trans (run_succ herase), hfsm', hcursor, hout'.trans hout, hnone⟩

end Sys2Proof.Claims
end
